-- ==== Sys2Proof/Word.lean ====
section
/-! DEFINITION. The plain data the block handles: bytes, the six synchronizer states, the input items and the pins that
carry them, and what the choice of a transition may look at. -/

namespace Sys2Proof

/-- `u8` of spec R9: an unsigned 8-bit value (a RawByte, a buffer cell, a checksum accumulator). -/
abbrev Byte := BitVec 8

/-- The synchronizer's state `st` (spec R21): exactly six values. -/
inductive St where
  | seek1      -- scanning for the first sync byte (the initial state)
  | seek2      -- expecting the second sync byte
  | type       -- the next byte is the message type
  | buffering  -- payload bytes are being appended
  | checkA     -- the next byte is compared with checksum A
  | checkB     -- the next byte is compared with checksum B
deriving DecidableEq, Repr

/-- An input item of a step (spec R6): what the environment presents. -/
inductive Item where
  | reset
  | byte (v : Byte)
  | idle
deriving DecidableEq, Repr

/-- The input pins of one step (spec R34): `rst`, `in_valid`, `in_byte[7:0]`. -/
structure Pins where
  rst     : Bool
  inValid : Bool
  inByte  : Byte
deriving DecidableEq, Repr

/-- All that the choice of a transition may look at beside the byte (spec R79): `st`, in BUFFERING `pl_len`, in CHECK_A
and CHECK_B the accumulators. -/
structure SelCtx where
  st    : St
  plLen : Nat
  ckA   : Byte
  ckB   : Byte
deriving DecidableEq, Repr

end Sys2Proof
end

