-- ==== Sys2Proof/Config.lean ====
section
/-! DEFINITION. What an implementation fixes (the constants of spec R5 as one record) and the one free value. -/

namespace Sys2Proof

/-- The named constants of spec R5 as one configuration record (decision D13). It is a parameter (U5): every definition that
computes with a constant takes the record as its last argument, and `Sys2Proof.Machine.params`, the document's values, is
that argument's default (log entry 25). -/
structure Config where
  sync1          : Byte
  sync2          : Byte
  typeSample     : Byte
  payloadLen     : Nat
  frameLen       : Nat
  offLoad        : Nat
  offSteps       : Nat
  offDisp        : Nat
  ckMod          : Nat
  statsThreshold : Nat
  cntW           : Nat
  stW            : Nat
deriving DecidableEq, Repr

/-- The constraints spec R5 and decision D13 put on a configuration. -/
abbrev Config.Valid (c : Config) : Prop :=
  1 ≤ c.statsThreshold ∧ c.statsThreshold ≤ 2 ^ c.cntW - 1 ∧
  c.payloadLen = c.offDisp + 2 ∧ c.frameLen = 2 + c.payloadLen + 2 ∧
  c.offSteps = c.offLoad + 4 ∧ c.offDisp = c.offSteps + 4

/-- FREE VALUE (log entry 5): what a counter of width `w` holds after an increment whose result does not fit `w` bits. The
spec gives it no value: spec R185 says that the counters never wrap, and spec R33 (g) excludes every state in which the
increment would not fit. The second argument is `State.draws`, so each use may differ. -/
opaque Config.freeCount (w : Nat) : Nat → BitVec w

end Sys2Proof
end

