-- ==== Sys2Proof/Machine/Parameters.lean ====
section
/-! DEFINITION. The document's values of the configuration constants (spec R5), in one place, so that a corrected literal
changes one field; and the two types whose size is a constant. -/

namespace Sys2Proof

/-- The normative values of spec R5 (log entry 6): the default of every configuration argument. -/
def Machine.params : Config where
  sync1          := 0x74#8
  sync2          := 0x74#8
  typeSample     := 0x06#8
  payloadLen     := 11
  frameLen       := 15
  offLoad        := 1
  offSteps       := 5
  offDisp        := 9
  ckMod          := 256
  statsThreshold := 150
  cntW           := 8
  stW            := 3

/-- A value of `total_cnt` or `good_cnt`: `CNT_W` bits (spec R25, R26). -/
abbrev Counter := BitVec Machine.params.cntW

/-- A complete payload: exactly `PAYLOAD_LEN` bytes, index 0 first (spec R51). One of another length cannot be written down
(spec R127). -/
abbrev Payload := Vector Byte Machine.params.payloadLen

end Sys2Proof
end

