-- ==== Sys2Proof/Syntax.lean ====
section
/-! DEFINITION. The operations of the block: one constructor per row of spec/opcode_table.json (spec R76, R77, R83). -/

namespace Sys2Proof

/-- The twelve transitions selected by (state, byte), the six internal operations, and the two items that carry no byte.
A transition whose byte is a constant (`.HIT`, `TY.SAMPLE`) has no operand: the byte is the constant. -/
inductive Instr where
  -- format byte: transitions selected by `st` and the input byte `v` (spec R76)
  | s1Hit
  | s1Miss (v : Byte)
  | s2Hit
  | s2Miss (v : Byte)
  | tySample
  | tyUnk (v : Byte)
  | bufApp (v : Byte)
  | bufLast (v : Byte)
  | caMatch (v : Byte)
  | caMism (v : Byte)
  | cbMatch (v : Byte)
  | cbMism (v : Byte)
  -- format internal: checksum engine, decoder and statistics operations; no byte selects them (spec R77)
  | ckClear
  | ckAbsorb (v : Byte)
  | le32s (p : List Byte) (k : Nat)
  | le16s (p : List Byte) (k : Nat)
  | decode (p : Payload)
  | statCheck (g : Counter)
  -- format item: the two items without a byte
  | reset
  | idle
deriving DecidableEq, Repr

end Sys2Proof
end

