-- ==== Sys2Proof/Decode.lean ====
section
/-! DEFINITION. From pins to an item, from (state, item) to an operation, and back: the transition map of spec R76, the
encoder, and the opcode table written as rows. -/

namespace Sys2Proof

open Sys2Proof.Machine (params)

/-- Why the decoder gives no operation. -/
inductive DecodeReject where
  /-- BUFFERING with a buffer of `PAYLOAD_LEN` bytes or more: no transition rule applies (spec R159, U8). -/
  | noTransition
  /-- The words given are not exactly one byte: an item that carries data is one byte (spec R75). -/
  | notOneByte
deriving DecidableEq, Repr

/-! ## Pins and items -/

/-- The item the pins stand for (spec R34): `rst` wins over a byte presented with it (spec R231), a byte over nothing, and
`in_byte` is ignored unless it is valid (U9). -/
def Pins.item (p : Pins) : Item :=
  if p.rst then .reset else if p.inValid then .byte p.inByte else .idle

/-- Pins that present an item. The ignored `in_byte` of the two items without a byte is driven to 0. -/
def Item.pins : Item → Pins
  | .reset => ⟨true, false, 0#8⟩
  | .byte v => ⟨false, true, v⟩
  | .idle => ⟨false, false, 0#8⟩

/-! ## The transition map (spec R76, R142) -/

/-- The one transition a byte selects in a context. -/
def decodeByte (x : SelCtx) (v : Byte) (c : Config := params) : Except DecodeReject Instr :=
  match x.st with
  | .seek1 => .ok (if v = c.sync1 then .s1Hit else .s1Miss v)
  | .seek2 => .ok (if v = c.sync2 then .s2Hit else .s2Miss v)
  | .type => .ok (if v = c.typeSample then .tySample else .tyUnk v)
  | .buffering =>
    if x.plLen + 1 < c.payloadLen then .ok (.bufApp v)
    else if x.plLen + 1 = c.payloadLen then .ok (.bufLast v)
    else .error .noTransition
  | .checkA => .ok (if v = x.ckA then .caMatch v else .caMism v)
  | .checkB => .ok (if v = x.ckB then .cbMatch v else .cbMism v)

/-- The operation an item selects (spec R140). -/
def decodeItem (x : SelCtx) (it : Item) (c : Config := params) : Except DecodeReject Instr :=
  match it with
  | .reset => .ok .reset
  | .byte v => decodeByte x v c
  | .idle => .ok .idle

/-- The operation the words of an input select: they must be exactly one byte (spec R75). -/
def decodeWords (x : SelCtx) (bs : List Byte) (c : Config := params) : Except DecodeReject Instr :=
  match bs with
  | [v] => decodeByte x v c
  | _ => .error .notOneByte

/-- What the choice sees right after reset (spec R36). -/
def resetCtx : SelCtx := ⟨.seek1, 0, 0#8, 0#8⟩

/-- The operation the decoder reads from a table word. The word is the input byte, and the state that shares in the choice
is the one right after reset (log entry 7). -/
def decodeTableWord (nbits w : Nat) : Option Instr :=
  if nbits = 8 ∧ w < 256 then (decodeWords resetCtx [BitVec.ofNat 8 w]).toOption else none

/-! ## The encoder -/

/-- The item that carries an operation, or none for an internal operation, which has no encoding (spec R77). -/
def encode (i : Instr) (c : Config := params) : Option Item :=
  match i with
  | .s1Hit => some (.byte c.sync1)
  | .s1Miss v => some (.byte v)
  | .s2Hit => some (.byte c.sync2)
  | .s2Miss v => some (.byte v)
  | .tySample => some (.byte c.typeSample)
  | .tyUnk v => some (.byte v)
  | .bufApp v => some (.byte v)
  | .bufLast v => some (.byte v)
  | .caMatch v => some (.byte v)
  | .caMism v => some (.byte v)
  | .cbMatch v => some (.byte v)
  | .cbMism v => some (.byte v)
  | .ckClear => none
  | .ckAbsorb _ => none
  | .le32s _ _ => none
  | .le16s _ _ => none
  | .decode _ => none
  | .statCheck _ => none
  | .reset => some .reset
  | .idle => some .idle

/-- The name of the row an operation stands for, as spec/opcode_table.json spells it. -/
def Instr.mnemonic : Instr → String
  | .s1Hit => "S1.HIT"
  | .s1Miss _ => "S1.MISS"
  | .s2Hit => "S2.HIT"
  | .s2Miss _ => "S2.MISS"
  | .tySample => "TY.SAMPLE"
  | .tyUnk _ => "TY.UNK"
  | .bufApp _ => "BUF.APP"
  | .bufLast _ => "BUF.LAST"
  | .caMatch _ => "CA.MATCH"
  | .caMism _ => "CA.MISM"
  | .cbMatch _ => "CB.MATCH"
  | .cbMism _ => "CB.MISM"
  | .ckClear => "CK.CLEAR"
  | .ckAbsorb _ => "CK.ABSORB"
  | .le32s _ _ => "LE32S"
  | .le16s _ _ => "LE16S"
  | .decode _ => "DECODE"
  | .statCheck _ => "STAT.CHECK"
  | .reset => "RESET"
  | .idle => "IDLE"

/-! ## Operands lines: where an operation is selected -/

/-- The whole operand line of an operation (state and byte condition, spec R143 to R154): it holds in a context exactly when
that context selects the operation. Items are selected everywhere, internal operations nowhere (spec R77). -/
def Instr.selected (x : SelCtx) (i : Instr) (c : Config := params) : Bool :=
  match i with
  | .s1Hit => x.st == .seek1
  | .s1Miss v => x.st == .seek1 && v != c.sync1
  | .s2Hit => x.st == .seek2
  | .s2Miss v => x.st == .seek2 && v != c.sync2
  | .tySample => x.st == .type
  | .tyUnk v => x.st == .type && v != c.typeSample
  | .bufApp _ => x.st == .buffering && decide (x.plLen + 1 < c.payloadLen)
  | .bufLast _ => x.st == .buffering && decide (x.plLen + 1 = c.payloadLen)
  | .caMatch v => x.st == .checkA && v == x.ckA
  | .caMism v => x.st == .checkA && v != x.ckA
  | .cbMatch v => x.st == .checkB && v == x.ckB
  | .cbMism v => x.st == .checkB && v != x.ckB
  | .ckClear => false
  | .ckAbsorb _ => false
  | .le32s _ _ => false
  | .le16s _ _ => false
  | .decode _ => false
  | .statCheck _ => false
  | .reset => true
  | .idle => true

/-! ## The opcode table as data (spec R83) -/

/-- The `cond` field of a row of format `byte`. -/
inductive RowCond where
  /-- `(v AND mask) = pattern`, or its negation. -/
  | const (pattern mask : Byte) (negate : Bool)
  /-- `pl_len <= n`, any byte. -/
  | lenAtMost (n : Nat)
  /-- `pl_len = n`, any byte. -/
  | lenIs (n : Nat)
  /-- `v = ck_a`, or its negation. -/
  | accA (negate : Bool)
  /-- `v = ck_b`, or its negation. -/
  | accB (negate : Bool)
deriving DecidableEq, Repr

/-- A row of format `byte` of spec/opcode_table.json: `fields.state`, `cond`, `fields.next`. -/
structure Row where
  mnemonic : String
  state    : St
  cond     : RowCond
  next     : St
deriving DecidableEq, Repr

/-- The rows of format `byte`, in the table's order. The table prints the values of the constants its `cond` field names
(`v = SYNC1`, `v = SYNC2`, `v = TYPE_SAMPLE`, and `pl_len` against `PAYLOAD_LEN` - 2 and - 1). -/
def byteRows (c : Config := params) : List Row :=
  [ ⟨"S1.HIT", .seek1, .const c.sync1 0xFF#8 false, .seek2⟩,
    ⟨"S1.MISS", .seek1, .const c.sync1 0xFF#8 true, .seek1⟩,
    ⟨"S2.HIT", .seek2, .const c.sync2 0xFF#8 false, .type⟩,
    ⟨"S2.MISS", .seek2, .const c.sync2 0xFF#8 true, .seek1⟩,
    ⟨"TY.SAMPLE", .type, .const c.typeSample 0xFF#8 false, .buffering⟩,
    ⟨"TY.UNK", .type, .const c.typeSample 0xFF#8 true, .seek1⟩ ] ++
  [ ⟨"BUF.APP", .buffering, .lenAtMost (c.payloadLen - 2), .buffering⟩,
    ⟨"BUF.LAST", .buffering, .lenIs (c.payloadLen - 1), .checkA⟩,
    ⟨"CA.MATCH", .checkA, .accA false, .checkB⟩,
    ⟨"CA.MISM", .checkA, .accA true, .seek1⟩,
    ⟨"CB.MATCH", .checkB, .accB false, .seek1⟩,
    ⟨"CB.MISM", .checkB, .accB true, .seek1⟩ ]

/-- Does a row's condition hold of a byte in a context? -/
def RowCond.holds (x : SelCtx) (v : Byte) : RowCond → Bool
  | .const pattern mask negate => ((v &&& mask) == pattern) != negate
  | .lenAtMost n => decide (x.plLen ≤ n)
  | .lenIs n => decide (x.plLen = n)
  | .accA negate => (v == x.ckA) != negate
  | .accB negate => (v == x.ckB) != negate

/-- Does a row take a byte in a context: dispatch on `fields.state`, then test `cond` (spec R83)? -/
def Row.takes (x : SelCtx) (v : Byte) (r : Row) : Bool :=
  r.state == x.st && r.cond.holds x v

end Sys2Proof
end

