-- ==== Sys2Proof/Machine/State.lean ====
section
/-! DEFINITION. The state of the machine, what leaves it, why a step can stop, and the state after reset. -/

namespace Sys2Proof.Machine

/-- The payload buffer `pl` (spec R22, R50): one (index, byte) cell per buffered byte, index 0 first. An index that is not
listed (at or above `pl_len`) holds no value: spec R22 and U7 forbid reading it. -/
abbrev Memory := List Host.Cell

/-- A Sample (spec R130): 32, 32 and 16 bits, each the two's-complement pattern of a signed field (spec R132). Its signed
values are the `toInt` of the fields. -/
structure Sample where
  load         : BitVec 32
  steps        : BitVec 32
  displacement : BitVec 16
deriving DecidableEq, Repr

/-- What a step gives out (spec R12, R35). -/
inductive Event where
  | sample (x : Sample)
  | unknownType (v : Byte)
  | statsReport (good total : Counter)
deriving DecidableEq, Repr

/-- The error taxonomy of spec R201. A condition is only a name: nothing records it but the event of `unknownType`. -/
inductive Condition where
  | syncLoss
  | unknownType (v : Byte)
  | checksumMismatch
  | sourceExhausted
deriving DecidableEq, Repr

/-- The result of a pure operation of the decoder performed by itself (LE32S, LE16S, DECODE; log entry 3). -/
inductive OpResult where
  | int32 (v : BitVec 32)
  | int16 (v : BitVec 16)
  | sample (x : Sample)
deriving DecidableEq, Repr

/-- The machine. The first six fields are the record σ of spec R20, the whole state of the block; `pl_len` is the length
of `pl`. The other four are the model's own: the environment's items, what the step just taken gave out, and the count of
free values drawn (log entries 1, 2, 3, 5). -/
structure State where
  /-- `st`, the sequencing state (spec R21). -/
  st       : St
  /-- `pl`, the payload buffer (spec R22). -/
  pl       : Memory
  /-- `ck_a`, the 8-bit running sum (spec R24). -/
  ckA      : Byte
  /-- `ck_b`, the 8-bit running sum of sums (spec R24). -/
  ckB      : Byte
  /-- `total_cnt` (spec R25). -/
  totalCnt : Counter
  /-- `good_cnt` (spec R26). -/
  goodCnt  : Counter
  /-- What the environment will present, one `Pins` a step, the next first (spec R34). When nothing is listed every
  further step is `Idle` (spec R205). Not state of the block. -/
  inputs   : List Pins
  /-- The event list of the step that made this state (spec R12, R35). Not state of the block. -/
  events   : List Event
  /-- The result of a pure decoder operation performed in the step that made this state. Not state of the block. -/
  result   : Option OpResult
  /-- How many free values have been drawn. Not state of the block. -/
  draws    : Nat
deriving DecidableEq, Repr

/-- The record σ of spec R20 alone. -/
structure Block where
  st       : St
  pl       : Memory
  ckA      : Byte
  ckB      : Byte
  totalCnt : Counter
  goodCnt  : Counter
deriving DecidableEq, Repr

/-- The block's part of a state. -/
def State.block (s : State) : Block :=
  ⟨s.st, s.pl, s.ckA, s.ckB, s.totalCnt, s.goodCnt⟩

/-- Reasons the machine stops with a fault. THERE ARE NONE: no condition of the block is fatal and nothing traps (spec
R78, R200), so this type has no constructor, and no step can answer a fault. -/
inductive Fault where
deriving DecidableEq, Repr

/-- Reasons an operation has no meaning where it was asked for. -/
inductive Refusal where
  /-- Raised by `exec` for an operation whose meaning is not written yet. No arm raises it. Safe. -/
  | notModelled (mnemonic : String)
  /-- Raised by a transition's meaning when its operand line (state and byte condition, spec R143 to R154) does not hold:
  the spec gives the transition no effect there, and `step` never asks for it. Safe (log entry 4). -/
  | notSelected
  /-- Raised by `step` for a byte in BUFFERING with a full buffer, where no transition rule applies (spec R159, U8: refuse).
  No reachable state is one. Safe (log entry 8). -/
  | noTransition
  /-- Raised by CB.MATCH (and by DECODE of a payload of another configuration) when there are not exactly `PAYLOAD_LEN`
  bytes, where `Decode` has no meaning (spec R127, U1:
  refuse). No reachable state is one. Safe (log entry 8). -/
  | payloadLength
  /-- Raised by LE32S and LE16S when the field does not lie inside the sequence (spec R121, R122, R56; U7: refuse). Safe
  (log entry 9). -/
  | fieldOutOfRange
deriving DecidableEq, Repr

/-- The state after reset (spec R36), with nothing presented by the environment and nothing given out. -/
def State.reset : State where
  st       := .seek1
  pl       := []
  ckA      := 0#8
  ckB      := 0#8
  totalCnt := 0
  goodCnt  := 0
  inputs   := []
  events   := []
  result   := none
  draws    := 0

end Sys2Proof.Machine
end

