-- ==== Sys2Proof/Machine/Flags.lean ====
section
/-! DEFINITION. The block has no status flags and no condition codes (spec R29): the result of a comparison is used in the
step that makes it and is not stored. The comparisons that choose a transition are `Instr.selected` and `decodeByte`; here
are the two tests a step makes on its counters. -/

namespace Sys2Proof.Machine

/-- The threshold test of STAT.CHECK, `total_cnt = STATS_THRESHOLD` (spec R183: the test is `=`). -/
def atThreshold (total : Counter) (c : Config := params) : Bool := total.toNat == c.statsThreshold

/-- Does a counter's value plus one fit its width? For a `Counter`, of `CNT_W` bits, it does in every reachable state (spec
R33 (g), (h)). -/
def incFits {w : Nat} (n : BitVec w) : Bool := decide (n.toNat + 1 < 2 ^ w)

end Sys2Proof.Machine
end

