-- ==== Sys2Proof/Machine/Operands.lean ====
section
/-! DEFINITION. Reading operands: the payload buffer as a byte sequence, little-endian fields, two's complement, and the
Sample of a payload (spec R9, R50 to R56, R120 to R132). -/

namespace Sys2Proof.Machine

/-! ## The payload buffer -/

/-- The form of a payload buffer (spec R22, R50): its cells stand at the indices 0, 1, 2, ... in order, and there are at
most `PAYLOAD_LEN` of them. It is canonical: equal buffers are equal lists. -/
abbrev Memory.wf (m : Memory) (c : Config := params) : Prop :=
  m.map (·.1) = List.range m.length ∧ m.length ≤ c.payloadLen

/-- `pl_len` (spec R23): the number of bytes in the buffer. -/
def Memory.len (m : Memory) : Nat := m.length

/-- The buffer as the byte sequence of spec R20. -/
def Memory.bytes (m : Memory) : List Byte := m.map (·.2)

/-- One byte of the buffer, by its index; none at an index that holds no byte. -/
def Memory.read (m : Memory) (a : Nat) : Option Byte :=
  (m.find? fun c => c.1 == a).map (·.2)

/-- `pl <- []` (spec R22). -/
def Memory.clear : Memory := []

/-- `MemWrite(pl_len, 1, v)`, the append of spec R56: the byte lands at index `pl_len`. -/
def Memory.append (m : Memory) (v : Byte) : Memory := m ++ [(m.len, v)]

/-! ## Byte order and sign (spec R52, R9) -/

/-- The unsigned value of a field, least significant byte first (spec R52). -/
def leNat : List Byte → Nat
  | [] => 0
  | b :: bs => b.toNat + 256 * leNat bs

/-- `sext_N(v)` of spec R9: the signed reading of an `N`-bit unsigned `v` (two's complement, G1; log entry 10). -/
def sext (N v : Nat) : Int :=
  if v < 2 ^ (N - 1) then (v : Int) else (v : Int) - 2 ^ N

/-- The `N`-bit signed field whose bytes are `bs`, as its two's-complement pattern (spec R121, R122, R132). -/
def signedField (N : Nat) (bs : List Byte) : BitVec N :=
  BitVec.ofInt N (sext N (leNat bs))

/-- The `n` bytes at index `k`. -/
def slice (p : List Byte) (k n : Nat) : List Byte := (p.drop k).take n

/-- The `n` bytes at index `k`, where they lie inside the sequence. -/
def fieldBytes (p : List Byte) (k n : Nat) : Option (List Byte) :=
  if k + n ≤ p.length then some (slice p k n) else none

/-- `MemRead(addr, n)` of spec R56: defined for `n` in 1, 2, 4 and `addr + n <= pl_len`. -/
def memRead (m : Memory) (addr n : Nat) : Option Nat :=
  if n = 1 ∨ n = 2 ∨ n = 4 then (fieldBytes m.bytes addr n).map leNat else none

/-- `LE32S(p, k)` (spec R121). -/
def le32s (p : List Byte) (k : Nat) : Option (BitVec 32) :=
  (fieldBytes p k 4).map (signedField 32)

/-- `LE16S(p, k)` (spec R122). -/
def le16s (p : List Byte) (k : Nat) : Option (BitVec 16) :=
  (fieldBytes p k 2).map (signedField 16)

/-! ## Payloads and Samples -/

/-- The bytes of a payload, index 0 first. -/
def payloadBytes (p : Payload) : List Byte := p.toList

/-- The three fields at their fixed offsets (spec R120). -/
def sampleFields (bs : List Byte) (c : Config := params) : Sample where
  load         := signedField 32 (slice bs c.offLoad 4)
  steps        := signedField 32 (slice bs c.offSteps 4)
  displacement := signedField 16 (slice bs c.offDisp 2)

/-- `Decode` of a byte sequence: only one of exactly `PAYLOAD_LEN` bytes has a Sample (spec R120, R127). -/
def decodeBytes (bs : List Byte) (c : Config := params) : Option Sample :=
  if bs.length = c.payloadLen then some (sampleFields bs c) else none

/-- `Decode(p)` (spec R120) of a payload of the document's length. -/
def decodePayload (p : Payload) : Sample := sampleFields (payloadBytes p)

end Sys2Proof.Machine
end

