-- ==== Sys2Proof/Machine/Ops.lean ====
section
/-! DEFINITION. The operations every meaning is written over: the outcome of a selected transition, the payload buffer and
the checksum engine in the state, the counters, events, error conditions, and the input and output ports. -/

namespace Sys2Proof.Machine

/-- What a meaning answers. -/
abbrev Result := Host.Outcome State Fault Refusal

/-! ## Selection -/

/-- What the choice of a transition sees of a state (spec R79). -/
def State.selCtx (s : State) : SelCtx := ⟨s.st, s.pl.len, s.ckA, s.ckB⟩

/-- A transition runs where its operand line holds and nowhere else (log entry 4). -/
def whenSelected (i : Instr) (s : State) (r : Result) (c : Config := params) : Result :=
  if i.selected s.selCtx c then r else .refused .notSelected

/-! ## Sequencing, buffer, events -/

/-- `st <- S` (spec R10). -/
def goto (x : St) (s : State) : State := { s with st := x }

/-- `emit E` (spec R12): the event joins the end of the step's event list. -/
def emit (e : Event) (s : State) : State := { s with events := s.events ++ [e] }

/-- `pl <- []` (spec R22). -/
def clearBuffer (s : State) : State := { s with pl := Memory.clear }

/-- `pl <- pl ++ [v]` (spec R22, R56). -/
def appendByte (v : Byte) (s : State) : State := { s with pl := s.pl.append v }

/-- The index an append stores to (spec R56). -/
def appendAddress (s : State) : Nat := s.pl.len

/-! ## The checksum engine (spec R100 to R110) -/

/-- `Absorb((a, b), v)` (spec R102, R103): both additions are modulo `CK_MOD`, and `b` takes the new `a`. -/
def absorb (acc : Byte × Byte) (v : Byte) (c : Config := params) : Byte × Byte :=
  let a' := (acc.1.toNat + v.toNat) % c.ckMod
  let b' := (acc.2.toNat + a') % c.ckMod
  (BitVec.ofNat 8 a', BitVec.ofNat 8 b')

/-- `Checksum(s)` (spec R100, R103): the left fold of `absorb` from `(0, 0)`. -/
def checksum (s : List Byte) (c : Config := params) : Byte × Byte :=
  s.foldl (fun acc v => absorb acc v c) (0#8, 0#8)

/-- The engine's interface inside the block (spec R110): the signals `ck_clear`, `ck_absorb`, `ck_din`. -/
def ckEngine (clear absorbs : Bool) (din : Byte) (acc : Byte × Byte) (c : Config := params) : Byte × Byte :=
  let start := if clear then (0#8, 0#8) else acc
  if absorbs then absorb start din c else start

/-- One step of the engine on the accumulators of a state. -/
def engineStep (clear absorbs : Bool) (din : Byte) (s : State) (c : Config := params) : State :=
  let acc := ckEngine clear absorbs din (s.ckA, s.ckB) c
  { s with ckA := acc.1, ckB := acc.2 }

/-! ## The statistics counters (spec R180 to R185) -/

/-- A counter plus one; a free value where the sum does not fit the counter (log entry 5). -/
def incCounter {w : Nat} (n : BitVec w) (draw : Nat) : BitVec w :=
  if incFits n then BitVec.ofNat w (n.toNat + 1) else Config.freeCount w draw

/-- The draws after an increment of `n`: one more exactly where a free value was used. -/
def drawsAfterInc {w : Nat} (n : BitVec w) (draw : Nat) : Nat :=
  if incFits n then draw else draw + 1

/-- `total_cnt <- total_cnt + 1` (spec R181). -/
def bumpTotal (s : State) : State :=
  { s with totalCnt := incCounter s.totalCnt s.draws, draws := drawsAfterInc s.totalCnt s.draws }

/-- `good_cnt <- good_cnt + 1` (spec R182). -/
def bumpGood (s : State) : State :=
  { s with goodCnt := incCounter s.goodCnt s.draws, draws := drawsAfterInc s.goodCnt s.draws }

/-- STAT.CHECK with the good count `g` (spec R183): at the threshold, report and clear both counters. -/
def statCheckOp (g : Counter) (s : State) (c : Config := params) : State :=
  if atThreshold s.totalCnt c then
    { emit (.statsReport g s.totalCnt) s with totalCnt := 0, goodCnt := 0 }
  else s

/-! ## Conditions: the block's notion of an exception (spec R200 to R210) -/

/-- The symbolic identifier of a condition (spec R201, decision D10). -/
def Condition.id : Condition → String
  | .syncLoss => "E_SYNCLOSS"
  | .unknownType _ => "E_UNKTYPE"
  | .checksumMismatch => "E_CKSUM"
  | .sourceExhausted => "E_EOS"

/-- TAKING A CONDITION (spec R12, R201, R209): the local recovery, and nothing else. Nothing is saved, no mode changes and
control goes nowhere. There is no return from it: recovery is complete when the detecting step ends (spec R210).
SourceExhausted is not detected by the block and changes nothing (spec R205). -/
def raiseCondition (c : Condition) (s : State) : State :=
  match c with
  | .syncLoss => goto .seek1 s
  | .unknownType v => goto .seek1 (emit (.unknownType v) s)
  | .checksumMismatch => goto .seek1 s
  | .sourceExhausted => s

/-- The condition an operation detects (spec R201); no operation detects two. -/
def detects : Instr → Option Condition
  | .s2Miss _ => some .syncLoss
  | .tyUnk v => some (.unknownType v)
  | .caMism _ => some .checksumMismatch
  | .cbMism _ => some .checksumMismatch
  | .s1Hit => none
  | .s1Miss _ => none
  | .s2Hit => none
  | .tySample => none
  | .bufApp _ => none
  | .bufLast _ => none
  | .caMatch _ => none
  | .cbMatch _ => none
  | .ckClear => none
  | .ckAbsorb _ => none
  | .le32s _ _ => none
  | .le16s _ _ => none
  | .decode _ => none
  | .statCheck _ => none
  | .reset => none
  | .idle => none

/-! ## Input: fetching the item of a step -/

/-- The pins of the next step (spec R34). When the environment presents nothing more, `rst` and `in_valid` stay 0, which is
an endless run of `Idle` (spec R205). -/
def State.nextPins (s : State) : Pins :=
  match s.inputs with
  | [] => Item.idle.pins
  | p :: _ => p

/-- The item of the next step. -/
def State.nextItem (s : State) : Item := s.nextPins.item

/-- The state a step's operation starts from: the item is consumed (spec R34), and the step's event list is empty until the
operation emits into it (spec R35). -/
def beginStep (s : State) : State :=
  { s with inputs := s.inputs.tail, events := [], result := none }

/-- The pins that present a byte, given as a number. -/
def bytePins (w : Nat) : Pins := (Item.byte (BitVec.ofNat 8 w)).pins

/-- The item put before all that the environment was to present. -/
def present (p : Pins) (s : State) : State := { s with inputs := p :: s.inputs }

/-! ## Output ports (spec R34, R35, R132)

The valid pin of an event is `isSome` of its port. While it is 0 the data pins have no specified value (U6) and the port
holds none (log entry 11). -/

/-- `in_ready`, constant 1 (spec R34, R250). -/
def State.inReady (_ : State) : Bool := true

/-- `smp_valid`, `smp_load`, `smp_steps`, `smp_disp`. -/
def State.smpPort (s : State) : Option Sample :=
  s.events.findSome? fun
    | .sample x => some x
    | _ => none

/-- `unk_valid`, `unk_type`. -/
def State.unkPort (s : State) : Option Byte :=
  s.events.findSome? fun
    | .unknownType v => some v
    | _ => none

/-- `stat_valid`, `stat_good`, `stat_total`. -/
def State.statPort (s : State) : Option (Counter × Counter) :=
  s.events.findSome? fun
    | .statsReport g t => some (g, t)
    | _ => none

end Sys2Proof.Machine
end

