-- ==== Sys2Proof/Machine/Checksum.lean ====
section
/-! DEFINITION. The two operations of the checksum engine (spec R101, R102). -/

namespace Sys2Proof.Machine

/-- CK.CLEAR (spec R101). -/
def execCkClear (s : State) (c : Config := params) : Result := .next (engineStep true false 0#8 s c)

/-- CK.ABSORB v (spec R102). -/
def execCkAbsorb (v : Byte) (s : State) (c : Config := params) : Result := .next (engineStep false true v s c)

end Sys2Proof.Machine
end

