-- ==== Sys2Proof/Machine/FrameDecoder.lean ====
section
/-! DEFINITION. The frame decoder's operations performed by themselves (spec R120 to R122). They are pure: they change no
state element (spec R128), and their result leaves in the step's result (log entry 3). -/

namespace Sys2Proof.Machine

/-- The result of a pure operation leaves in the step that computes it. -/
def giveResult (r : OpResult) (s : State) : State := { s with result := some r }

/-- LE32S(p, k) (spec R121). -/
def execLe32s (p : List Byte) (k : Nat) (s : State) : Result :=
  match le32s p k with
  | some v => .next (giveResult (.int32 v) s)
  | none => .refused .fieldOutOfRange

/-- LE16S(p, k) (spec R122). -/
def execLe16s (p : List Byte) (k : Nat) (s : State) : Result :=
  match le16s p k with
  | some v => .next (giveResult (.int16 v) s)
  | none => .refused .fieldOutOfRange

/-- DECODE (spec R120): no failure path at the document's configuration, whose payloads have their length by their type.
At another configuration a payload of another length has no Sample (spec R127). -/
def execDecode (p : Payload) (s : State) (c : Config := params) : Result :=
  match decodeBytes (payloadBytes p) c with
  | some x => .next (giveResult (.sample x) s)
  | none => .refused .payloadLength

end Sys2Proof.Machine
end

