-- ==== Sys2Proof/Machine/Items.lean ====
section
/-! DEFINITION. The two items that carry no byte (spec R230, R141). -/

namespace Sys2Proof.Machine

/-- The values of spec R36, whatever the state before. -/
def resetBlock (s : State) : State :=
  { s with st := .seek1, pl := Memory.clear, ckA := 0#8, ckB := 0#8, totalCnt := 0, goodCnt := 0 }

/-- RESET (spec R230): no event, and a report that was due is lost with the counters. -/
def execReset (s : State) : Result := .next (resetBlock s)

/-- IDLE (spec R141): nothing changes and nothing is emitted; there is no timeout. -/
def execIdle (s : State) : Result := .next s

end Sys2Proof.Machine
end

