-- ==== Sys2Proof/Machine/Statistics.lean ====
section
/-! DEFINITION. The threshold report and clear (spec R183). -/

namespace Sys2Proof.Machine

/-- STAT.CHECK with the good count `g` of the step it belongs to (spec R183). -/
def execStatCheck (g : Counter) (s : State) (c : Config := params) : Result := .next (statCheckOp g s c)

end Sys2Proof.Machine
end

