-- ==== Sys2Proof/Machine/Synchronizer.lean ====
section
/-! DEFINITION. The twelve transitions of the frame synchronizer (spec R143 to R154), each at the configuration it is
given, by default the document's. -/

namespace Sys2Proof.Machine

/-- S1.HIT (spec R143). -/
def execS1Hit (s : State) (c : Config := params) : Result :=
  whenSelected .s1Hit s (.next (goto .seek2 s)) c

/-- S1.MISS (spec R144): no state element changes. -/
def execS1Miss (v : Byte) (s : State) (c : Config := params) : Result :=
  whenSelected (.s1Miss v) s (.next s) c

/-- S2.HIT (spec R145). -/
def execS2Hit (s : State) (c : Config := params) : Result :=
  whenSelected .s2Hit s (.next (goto .type s)) c

/-- S2.MISS (spec R146): SyncLoss; the byte is dropped, not tested again. -/
def execS2Miss (v : Byte) (s : State) (c : Config := params) : Result :=
  whenSelected (.s2Miss v) s (.next (raiseCondition .syncLoss s)) c

/-- TY.SAMPLE (spec R147, R109): the buffer and the accumulators start again from the type byte; the attempt is counted. -/
def execTySample (s : State) (c : Config := params) : Result :=
  whenSelected .tySample s
    (.next (goto .buffering (bumpTotal
      (engineStep true true c.typeSample (appendByte c.typeSample (clearBuffer s)) c)))) c

/-- TY.UNK (spec R148): the byte is reported and dropped; nothing is counted. -/
def execTyUnk (v : Byte) (s : State) (c : Config := params) : Result :=
  whenSelected (.tyUnk v) s (.next (raiseCondition (.unknownType v) s)) c

/-- BUF.APP (spec R149). -/
def execBufApp (v : Byte) (s : State) (c : Config := params) : Result :=
  whenSelected (.bufApp v) s (.next (engineStep false true v (appendByte v s) c)) c

/-- BUF.LAST (spec R150). -/
def execBufLast (v : Byte) (s : State) (c : Config := params) : Result :=
  whenSelected (.bufLast v) s (.next (goto .checkA (engineStep false true v (appendByte v s) c))) c

/-- CA.MATCH (spec R151): the byte is not stored. -/
def execCaMatch (v : Byte) (s : State) (c : Config := params) : Result :=
  whenSelected (.caMatch v) s (.next (goto .checkB s)) c

/-- CA.MISM (spec R152): ChecksumMismatch, then STAT.CHECK with the good count as it stands. -/
def execCaMism (v : Byte) (s : State) (c : Config := params) : Result :=
  whenSelected (.caMism v) s (.next (statCheckOp s.goodCnt (raiseCondition .checksumMismatch s) c)) c

/-- CB.MATCH (spec R153, R184): count the success, emit the Sample, return to SEEK1, then STAT.CHECK with the new good
count. A buffer that is not `PAYLOAD_LEN` bytes has no Sample (spec R127). -/
def execCbMatch (v : Byte) (s : State) (c : Config := params) : Result :=
  whenSelected (.cbMatch v) s
    (match decodeBytes s.pl.bytes c with
    | some x =>
      let t := bumpGood s
      .next (statCheckOp t.goodCnt (goto .seek1 (emit (.sample x) t)) c)
    | none => .refused .payloadLength) c

/-- CB.MISM (spec R154). -/
def execCbMism (v : Byte) (s : State) (c : Config := params) : Result :=
  whenSelected (.cbMism v) s (.next (statCheckOp s.goodCnt (raiseCondition .checksumMismatch s) c)) c

end Sys2Proof.Machine
end

