-- ==== Sys2Proof/Machine/Dispatch.lean ====
section
/-! DEFINITION. One arm per operation. -/

namespace Sys2Proof.Machine

def exec (i : Instr) (s : State) : Host.Outcome State Fault Refusal :=
  match i with
  | .s1Hit => Sys2Proof.Machine.execS1Hit s
  | .s1Miss v => Sys2Proof.Machine.execS1Miss v s
  | .s2Hit => Sys2Proof.Machine.execS2Hit s
  | .s2Miss v => Sys2Proof.Machine.execS2Miss v s
  | .tySample => Sys2Proof.Machine.execTySample s
  | .tyUnk v => Sys2Proof.Machine.execTyUnk v s
  | .bufApp v => Sys2Proof.Machine.execBufApp v s
  | .bufLast v => Sys2Proof.Machine.execBufLast v s
  | .caMatch v => Sys2Proof.Machine.execCaMatch v s
  | .caMism v => Sys2Proof.Machine.execCaMism v s
  | .cbMatch v => Sys2Proof.Machine.execCbMatch v s
  | .cbMism v => Sys2Proof.Machine.execCbMism v s
  | .ckClear => Sys2Proof.Machine.execCkClear s
  | .ckAbsorb v => Sys2Proof.Machine.execCkAbsorb v s
  | .le32s p k => Sys2Proof.Machine.execLe32s p k s
  | .le16s p k => Sys2Proof.Machine.execLe16s p k s
  | .decode p => Sys2Proof.Machine.execDecode p s
  | .statCheck g => Sys2Proof.Machine.execStatCheck g s
  | .reset => Sys2Proof.Machine.execReset s
  | .idle => Sys2Proof.Machine.execIdle s

end Sys2Proof.Machine
end

