-- ==== Sys2Proof/Machine/Step.lean ====
section
/-! DEFINITION. One step: one input item (spec R6, R140). -/

namespace Sys2Proof.Machine

/-- The item presented selects one operation in the state as it is (spec R63, R142), and that operation runs. -/
def step (s : State) : Host.Outcome State Fault Refusal :=
  match decodeItem s.selCtx s.nextItem with
  | .ok i => exec i (beginStep s)
  | .error _ => .refused .noTransition

/-- A table word stands at the input: the next item is its byte (log entry 7). -/
def State.withFetchWord (s : State) (_nbits w : Nat) : State := present (bytePins w) s

end Sys2Proof.Machine
end

