-- ==== Sys2Proof/Machine/Configured.lean ====
section
/-! DEFINITION. The block at any configuration (spec R5, decision D13, U5): the constants as the parameter the spec says a
model takes. `exec` and `step` are this machine at the document's values, `params` (log entry 25). -/

namespace Sys2Proof.Machine

/-- One operation at a configuration. -/
def execWith (c : Config) (i : Instr) (s : State) : Result :=
  match i with
  | .s1Hit => execS1Hit s c
  | .s1Miss v => execS1Miss v s c
  | .s2Hit => execS2Hit s c
  | .s2Miss v => execS2Miss v s c
  | .tySample => execTySample s c
  | .tyUnk v => execTyUnk v s c
  | .bufApp v => execBufApp v s c
  | .bufLast v => execBufLast v s c
  | .caMatch v => execCaMatch v s c
  | .caMism v => execCaMism v s c
  | .cbMatch v => execCbMatch v s c
  | .cbMism v => execCbMism v s c
  | .ckClear => execCkClear s c
  | .ckAbsorb v => execCkAbsorb v s c
  | .le32s p k => execLe32s p k s
  | .le16s p k => execLe16s p k s
  | .decode p => execDecode p s c
  | .statCheck g => execStatCheck g s c
  | .reset => execReset s
  | .idle => execIdle s

/-- One step at a configuration. -/
def stepWith (c : Config) (s : State) : Result :=
  match decodeItem s.selCtx s.nextItem c with
  | .ok i => execWith c i (beginStep s)
  | .error _ => .refused .noTransition

end Sys2Proof.Machine
end

