-- ==== Sys2Proof/Machine/Frame.lean ====
section
/-! DEFINITION. The wire format (spec R70 to R75) and the reference frame builder `Encode` (spec R82). They are no operation
of the block, which has no transmitter: claims and tests are stated with them. -/

namespace Sys2Proof.Machine

/-- Byte `i` of an unsigned value, byte 0 the least significant (spec R82: `(n div 256^i) mod 256`). -/
def byteAt (n i : Nat) : Byte := BitVec.ofNat 8 (n / 256 ^ i)

/-- Byte `k` of the payload that carries a Sample (spec R82, R51): the type byte first, and each field least significant
byte first at its offset. At the document's offsets these cover every index. -/
def payloadByte (x : Sample) (k : Nat) (c : Config := params) : Byte :=
  if c.offDisp ≤ k then byteAt x.displacement.toNat (k - c.offDisp)
  else if c.offSteps ≤ k then byteAt x.steps.toNat (k - c.offSteps)
  else if c.offLoad ≤ k then byteAt x.load.toNat (k - c.offLoad)
  else c.typeSample

/-- The payload bytes of a sample frame that carries a Sample (spec R82, R51). -/
def samplePayload (x : Sample) (c : Config := params) : List Byte :=
  (List.range c.payloadLen).map fun k => payloadByte x k c

/-- The same at the document's length, as a payload. -/
def payloadFor (x : Sample) : Payload := Vector.ofFn fun k => payloadByte x k

/-- The frame around payload bytes (spec R70, R73): two sync bytes, the bytes, and their checksum; `FRAME_LEN` bytes in all
around a payload of `PAYLOAD_LEN`. -/
def frameOf (bs : List Byte) (c : Config := params) : List Byte :=
  [c.sync1, c.sync2] ++ bs ++ [(checksum bs c).1, (checksum bs c).2]

/-- `Encode` (spec R82). -/
def encodeSample (x : Sample) (c : Config := params) : List Byte := frameOf (samplePayload x c) c

/-- The Sample of three integers, each taken modulo its field (spec R82). -/
def sampleOfInts (load steps displacement : Int) : Sample :=
  ⟨BitVec.ofInt 32 load, BitVec.ofInt 32 steps, BitVec.ofInt 16 displacement⟩

/-- The message types of the surrounding protocol (spec R72). The block knows only SAMPLE; every other value, named here or
not, is an unknown type. -/
def protocolTypes : List (String × Byte) :=
  [("NONE", 0#8), ("MOT_TARE", 1#8), ("MOT_HOME", 2#8), ("START_SAMPLING", 3#8), ("STOP_SAMPLING", 4#8),
    ("SET_SPEED", 5#8), ("SAMPLE", params.typeSample)]

/-- The code of a state in a hardware realisation, `ST_W` bits (spec R21, decision D4). -/
def stCode (x : St) : BitVec params.stW :=
  match x with
  | .seek1 => 0
  | .seek2 => 1
  | .type => 2
  | .buffering => 3
  | .checkA => 4
  | .checkB => 5

/-- The state a code stands for; the codes 6 and 7 stand for none (spec R21, U8). -/
def stOfCode (c : BitVec params.stW) : Option St :=
  [St.seek1, .seek2, .type, .buffering, .checkA, .checkB].find? fun x => stCode x == c

end Sys2Proof.Machine
end

