-- ==== Sys2Proof/WellFormed.lean ====
section
/-! DEFINITION. Which operations are well formed: the part of an operation's operand line that speaks of its own operands
and not of the machine's state. -/

namespace Sys2Proof

open Sys2Proof.Machine (params)

/-- The operand conditions of spec R144, R146, R148 (the byte differs from the constant its `.HIT` twin tests), R121 and
R122 (the field lies inside the sequence). Every other operand is free. -/
def Instr.wf (i : Instr) (c : Config := params) : Bool :=
  match i with
  | .s1Miss v => v != c.sync1
  | .s2Miss v => v != c.sync2
  | .tyUnk v => v != c.typeSample
  | .le32s p k => k + 4 ≤ p.length
  | .le16s p k => k + 2 ≤ p.length
  | .s1Hit => true
  | .s2Hit => true
  | .tySample => true
  | .bufApp _ => true
  | .bufLast _ => true
  | .caMatch _ => true
  | .caMism _ => true
  | .cbMatch _ => true
  | .cbMism _ => true
  | .ckClear => true
  | .ckAbsorb _ => true
  | .decode _ => true
  | .statCheck _ => true
  | .reset => true
  | .idle => true

end Sys2Proof
end

