-- ==== Sys2Proof/Safety.lean ====
section
/-! DEFINITION. What claims speak of: the invariants of spec R33, runs over item lists (spec R37, R140), and the events of a
run. -/

namespace Sys2Proof.Machine

/-! ## The invariants of spec R33 -/

/-- Every state a run from reset can reach satisfies this (spec R33; (f), one in-flight frame, is the type of `State`), at
the document's configuration or at another. -/
structure Inv (s : State) (c : Config := params) : Prop where
  /-- The buffer has its form, and (a): it never holds more than `PAYLOAD_LEN` bytes. -/
  buffer : s.pl.wf c
  /-- (b) in BUFFERING. -/
  lenBuffering : s.st = .buffering → 1 ≤ s.pl.len ∧ s.pl.len + 1 ≤ c.payloadLen
  /-- (b) in CHECK_A and CHECK_B. -/
  lenChecking : s.st = .checkA ∨ s.st = .checkB → s.pl.len = c.payloadLen
  /-- (b) in the other states. -/
  lenSeeking : s.st = .seek1 ∨ s.st = .seek2 ∨ s.st = .type → s.pl.len = 0 ∨ s.pl.len = c.payloadLen
  /-- (c): only the SAMPLE type is ever buffered. -/
  firstByte : 1 ≤ s.pl.len → s.pl.bytes.head? = some c.typeSample
  /-- (d): the accumulators are the checksum of the buffer. -/
  sums : (s.ckA, s.ckB) = checksum s.pl.bytes c
  /-- (e). -/
  goodLeTotal : s.goodCnt.toNat ≤ s.totalCnt.toNat
  /-- (g), first half. -/
  totalLe : s.totalCnt.toNat ≤ c.statsThreshold
  /-- (g), second half. -/
  totalSeeking : s.st = .seek1 ∨ s.st = .seek2 ∨ s.st = .type → s.totalCnt.toNat + 1 ≤ c.statsThreshold
  /-- (h): the attempt in flight is counted and not yet good. -/
  inFlight : s.st = .buffering ∨ s.st = .checkA ∨ s.st = .checkB → s.goodCnt.toNat + 1 ≤ s.totalCnt.toNat

/-! ## Runs (spec R140, R60) -/

/-- The state with one item at its input and nothing after it. -/
def feed (it : Item) (s : State) : State := { s with inputs := [it.pins] }

/-- `Run` from an item index on: the final state, and the events with the index of the item whose step emitted them (spec
R37). None if a step stops. -/
def runFrom : Nat → State → List Item → Option (State × List (Nat × Event))
  | _, s, [] => some ({ s with inputs := [] }, [])
  | n, s, it :: its =>
    match step (feed it s) with
    | .next t =>
      match runFrom (n + 1) t its with
      | some (u, evs) => some (u, t.events.map (fun e => (n, e)) ++ evs)
      | none => none
    | .fault _ => none
    | .refused _ => none

/-- `Run(σ, items)` (spec R140): the left fold of the step, items numbered from 0. -/
def run (s : State) (items : List Item) : Option (State × List (Nat × Event)) := runFrom 0 s items

/-- A byte list as the items that present it. -/
def byteItems (bs : List Byte) : List Item := bs.map .byte

/-- The Samples among the events of a run, in order. -/
def samplesOf (evs : List (Nat × Event)) : List Sample :=
  evs.filterMap fun e => match e.2 with
    | .sample x => some x
    | _ => none

/-- The reports among the events of a run, in order. -/
def reportsOf (evs : List (Nat × Event)) : List (Counter × Counter) :=
  evs.filterMap fun e => match e.2 with
    | .statsReport g t => some (g, t)
    | _ => none

/-- The events that do not come from the statistics: Samples and unknown types, with their indices (spec R187). -/
def frameEventsOf (evs : List (Nat × Event)) : List (Nat × Event) :=
  evs.filter fun e => match e.2 with
    | .statsReport _ _ => false
    | _ => true

/-- What one more item does to the bytes seen: a byte joins them, an idle item is ignored, a reset forgets them. -/
def seenAfter (seen : List Byte) : Item → List Byte
  | .reset => []
  | .byte v => seen ++ [v]
  | .idle => seen

/-- The bytes presented since the last `Reset` item, `Idle` items ignored (spec R161). -/
def bytesSinceReset (its : List Item) : List Byte := its.foldl seenAfter []

/-! ## A safe step -/

/-- A step that stops neither with a fault nor with a refusal. -/
def StepCompletes (s : State) : Prop := ∃ t, step s = .next t

end Sys2Proof.Machine
end

