-- ==== Sys2Proof/Certificates/Slice0/Obligations.lean ====
section
/-! DEFINITION. The statements for the provers. Each docstring names the sentence of the spec it formalises, or says that it
is the model's choice and names the log entry. -/

open Sys2Proof Sys2Proof.Machine

/-! ## Decoding and encoding -/

/-- Spec R76, section 4 of 30_encoding.md: words written out from the table's encodings, one for each family. The last clause
is the model's choice of log entry 7 (DESIGN CHOICE): a table word by itself is read in the state right after reset. -/
def Obligations.WordsDecodeAsTheTableSays : Prop :=
  decodeWords ⟨.seek1, 0, 0#8, 0#8⟩ [0b01110100#8] = .ok .s1Hit ∧
  decodeWords ⟨.seek1, 0, 0#8, 0#8⟩ [0b01110101#8] = .ok (.s1Miss 0x75#8) ∧
  decodeWords ⟨.seek2, 0, 0#8, 0#8⟩ [0b01110100#8] = .ok .s2Hit ∧
  decodeWords ⟨.type, 0, 0#8, 0#8⟩ [0b00000110#8] = .ok .tySample ∧
  decodeWords ⟨.type, 0, 0#8, 0#8⟩ [0b01110100#8] = .ok (.tyUnk 0x74#8) ∧
  decodeWords ⟨.buffering, 9, 0xE6#8, 0x5E#8⟩ [0b11101100#8] = .ok (.bufApp 0xEC#8) ∧
  decodeWords ⟨.buffering, 10, 0xD2#8, 0x30#8⟩ [0b11111111#8] = .ok (.bufLast 0xFF#8) ∧
  decodeWords ⟨.checkA, 11, 0xD1#8, 0x01#8⟩ [0b11010001#8] = .ok (.caMatch 0xD1#8) ∧
  decodeWords ⟨.checkA, 11, 0xD1#8, 0x01#8⟩ [0b11010010#8] = .ok (.caMism 0xD2#8) ∧
  decodeWords ⟨.checkB, 11, 0xD1#8, 0x01#8⟩ [0b00000001#8] = .ok (.cbMatch 0x01#8) ∧
  decodeWords ⟨.checkB, 11, 0xD1#8, 0x01#8⟩ [0b11010001#8] = .ok (.cbMism 0xD1#8) ∧
  decodeTableWord 8 0x74 = some .s1Hit

/-- Spec R76, R77, R142: an item selects an operation exactly where the operation's operand line holds and the item carries
it; every well-formed operation that has an encoding is selected by it somewhere; an operation an item selects is well
formed; and presenting an item on the pins loses nothing of it. -/
def Obligations.DecodeInvertsEncode : Prop :=
  (∀ (c : SelCtx) (it : Item) (i : Instr),
    decodeItem c it.pins.item = .ok i ↔ i.selected c = true ∧ encode i = some it) ∧
  (∀ (i : Instr) (it : Item), i.wf = true → encode i = some it → ∃ c, decodeItem c it = .ok i) ∧
  (∀ (c : SelCtx) (it : Item) (i : Instr), decodeItem c it = .ok i → i.wf = true)

/-- Spec R76, R83: the rows of the opcode table that take a byte in a context are exactly one row, the decoder's, or none
where the buffer is full (R159); and the operation that row names goes to the row's next state. -/
def Obligations.TableRowsAgreeWithTheMachine : Prop :=
  (∀ (c : SelCtx) (v : Byte), (byteRows.filter (·.takes c v)).map (·.mnemonic) =
    match decodeByte c v with
    | .ok i => [i.mnemonic]
    | .error _ => []) ∧
  (∀ (s t : State) (v : Byte) (i : Instr) (r : Row), r ∈ byteRows → r.takes s.selCtx v = true →
    decodeByte s.selCtx v = .ok i → exec i s = .next t → t.st = r.next)

/-- Spec R34, R231, U9: which item the pins present. The pins are the spec's decisions D2 and D14. -/
def Obligations.PinsPresentOneItem : Prop :=
  ∀ (valid : Bool) (v : Byte),
    (Pins.mk true valid v).item = .reset ∧
    (Pins.mk false true v).item = .byte v ∧
    (Pins.mk false false v).item = .idle

/-- Spec R159, U8: the decoder refuses exactly a byte in BUFFERING with a full buffer, and words that are not one byte. -/
def Obligations.DecoderRefusesOnlyAFullBuffer : Prop :=
  (∀ (c : SelCtx) (it : Item) (e : DecodeReject),
    decodeItem c it = .error e ↔
      e = .noTransition ∧ c.st = .buffering ∧ params.payloadLen ≤ c.plLen ∧ ∃ v, it = .byte v) ∧
  (∀ (c : SelCtx) (bs : List Byte), bs.length ≠ 1 → decodeWords c bs = .error .notOneByte)

/-! ## The step -/

/-- Spec R140, R142, R205: a step runs the operation the presented item selects, on the state whose item is consumed and
whose event list is empty; with nothing presented it is an idle step. The rest is the model's: the queue of inputs and the
event list in the state (log entries 1 and 2), the result that is cleared (log entry 3, DESIGN CHOICE), the refusal where no
operation is selected (log entry 8, DEDUCED), and that a table word placed at the input is the next byte (log entry 7,
DESIGN CHOICE). -/
def Obligations.StepRunsTheSelectedOperation : Prop :=
  (∀ (s : State) (p : Pins) (rest : List Pins) (i : Instr), s.inputs = p :: rest →
    decodeItem s.selCtx p.item = .ok i →
    step s = exec i { s with inputs := rest, events := [], result := none }) ∧
  (∀ s : State, s.inputs = [] → step s = .next { s with events := [], result := none }) ∧
  (∀ (s : State) (p : Pins) (rest : List Pins) (e : DecodeReject), s.inputs = p :: rest →
    decodeItem s.selCtx p.item = .error e → step s = .refused .noTransition) ∧
  (∀ (s : State) (w : Nat) (i : Instr), w < 256 → decodeWords s.selCtx [BitVec.ofNat 8 w] = .ok i →
    step (s.withFetchWord 8 w) = exec i { s with events := [], result := none })

/-- Spec R36: what reset leaves, with no event. That `pl` is empty is the spec's decision D3. -/
def Obligations.ResetStateIsAsSpecified : Prop :=
  State.reset.block = ⟨.seek1, [], 0#8, 0#8, 0, 0⟩ ∧ State.reset.events = [] ∧
  State.reset.smpPort = none ∧ State.reset.unkPort = none ∧ State.reset.statPort = none

/-- Spec R230, R231: `Reset` from every state, reachable or not, whatever the other pins; no event, even when a report is
due. That reset is an input is the spec's decision D3. -/
def Obligations.ResetFromEveryState : Prop :=
  (∀ s : State, exec .reset s = .next { s with
    st := .seek1, pl := [], ckA := 0#8, ckB := 0#8, totalCnt := 0, goodCnt := 0 }) ∧
  (∀ (s : State) (valid : Bool) (v : Byte), ∃ t, step (present ⟨true, valid, v⟩ s) = .next t ∧
    t.block = State.reset.block ∧ t.events = [] ∧ t.inputs = s.inputs)

/-- Spec R141, U9: an idle step changes no state element and emits nothing, whatever is on `in_byte`. -/
def Obligations.IdleChangesNothing : Prop :=
  (∀ s : State, exec .idle s = .next s) ∧
  (∀ (s : State) (v : Byte), ∃ t, step (present ⟨false, false, v⟩ s) = .next t ∧
    t.block = s.block ∧ t.events = [] ∧ t.inputs = s.inputs)

/-! ## The twelve transitions, by themselves and as the step on a presented byte -/

/-- Spec R143. -/
def Obligations.FirstSyncByteGoesToSeek2 : Prop :=
  ∀ s : State, s.st = .seek1 →
    exec .s1Hit s = .next { s with st := .seek2 } ∧
    step (present (Item.byte params.sync1).pins s) = .next { s with st := .seek2, events := [], result := none }

/-- Spec R144. -/
def Obligations.OtherByteStaysInSeek1 : Prop :=
  ∀ (s : State) (v : Byte), s.st = .seek1 → v ≠ params.sync1 →
    exec (.s1Miss v) s = .next s ∧
    step (present (Item.byte v).pins s) = .next { s with events := [], result := none }

/-- Spec R145. -/
def Obligations.SecondSyncByteGoesToType : Prop :=
  ∀ s : State, s.st = .seek2 →
    exec .s2Hit s = .next { s with st := .type } ∧
    step (present (Item.byte params.sync2).pins s) = .next { s with st := .type, events := [], result := none }

/-- Spec R146, R202: SyncLoss; the byte is dropped, not tested again (the spec's decision D17), and nothing is emitted. -/
def Obligations.MissedSecondSyncByteGoesToSeek1 : Prop :=
  ∀ (s : State) (v : Byte), s.st = .seek2 → v ≠ params.sync2 →
    exec (.s2Miss v) s = .next { s with st := .seek1 } ∧
    step (present (Item.byte v).pins s) = .next { s with st := .seek1, events := [], result := none }

/-- Spec R147: the buffer is cleared and holds the type byte, the accumulators start from it, the attempt is counted. The
next statement is about the counts that do not fit, which no reachable state has. -/
def Obligations.SampleTypeStartsAnAttempt : Prop :=
  ∀ s : State, s.st = .type → s.totalCnt.toNat < 255 →
    exec .tySample s = .next { s with
      st := .buffering, pl := [(0, params.typeSample)], ckA := params.typeSample, ckB := params.typeSample,
      totalCnt := s.totalCnt + 1 } ∧
    step (present (Item.byte params.typeSample).pins s) = .next { s with
      st := .buffering, pl := [(0, params.typeSample)], ckA := params.typeSample, ckB := params.typeSample,
      totalCnt := s.totalCnt + 1, events := [], result := none }

/-- The model's choice of log entry 5: where the count plus one does not fit eight bits, TY.SAMPLE runs all the same, with
every effect but the new count, which is free. -/
def Obligations.SampleTypeRunsAtAFullCount : Prop :=
  ∀ s : State, s.st = .type → s.totalCnt.toNat = 255 →
    ∃ n, exec .tySample s = .next { s with
        st := .buffering, pl := [(0, params.typeSample)], ckA := params.typeSample, ckB := params.typeSample,
        totalCnt := n, draws := s.draws + 1 } ∧
      step (present (Item.byte params.typeSample).pins s) = .next { s with
        st := .buffering, pl := [(0, params.typeSample)], ckA := params.typeSample, ckB := params.typeSample,
        totalCnt := n, draws := s.draws + 1, events := [], result := none }

/-- Spec R148, R203: the event carries the byte (the spec's decision D8), the attempt is not counted, the byte is dropped. -/
def Obligations.OtherTypeIsReportedAndDropped : Prop :=
  ∀ (s : State) (v : Byte), s.st = .type → v ≠ params.typeSample →
    exec (.tyUnk v) s = .next { s with st := .seek1, events := s.events ++ [.unknownType v] } ∧
    step (present (Item.byte v).pins s) = .next { s with
      st := .seek1, events := [.unknownType v], result := none }

/-- Spec R149: any byte, a sync byte too, is data; it is appended and absorbed. -/
def Obligations.PayloadByteIsAppended : Prop :=
  ∀ (s : State) (v : Byte), s.st = .buffering → s.pl.len ≤ 9 →
    exec (.bufApp v) s = .next { s with
      pl := s.pl ++ [(s.pl.len, v)], ckA := s.ckA + v, ckB := s.ckB + (s.ckA + v) } ∧
    step (present (Item.byte v).pins s) = .next { s with
      pl := s.pl ++ [(s.pl.len, v)], ckA := s.ckA + v, ckB := s.ckB + (s.ckA + v), events := [], result := none }

/-- Spec R150; in every state of the invariant the sums are then the checksum of the complete payload. -/
def Obligations.LastPayloadByteGoesToCheckA : Prop :=
  ∀ (s : State) (v : Byte), s.st = .buffering → s.pl.len = 10 →
    exec (.bufLast v) s = .next { s with
      st := .checkA, pl := s.pl ++ [(10, v)], ckA := s.ckA + v, ckB := s.ckB + (s.ckA + v) } ∧
    step (present (Item.byte v).pins s) = .next { s with
      st := .checkA, pl := s.pl ++ [(10, v)], ckA := s.ckA + v, ckB := s.ckB + (s.ckA + v),
      events := [], result := none } ∧
    (Inv s → (s.ckA + v, s.ckB + (s.ckA + v)) = checksum (s.pl.bytes ++ [v]))

/-- Spec R151: in every state of the invariant the byte is compared with `Checksum(pl).a`; it is not stored. -/
def Obligations.MatchingChecksumAGoesToCheckB : Prop :=
  ∀ s : State, s.st = .checkA →
    exec (.caMatch s.ckA) s = .next { s with st := .checkB } ∧
    step (present (Item.byte s.ckA).pins s) = .next { s with st := .checkB, events := [], result := none } ∧
    (Inv s → s.ckA = (checksum s.pl.bytes).1)

/-- Spec R152, R204: ChecksumMismatch, silent but for a report that falls due. The threshold test at this place is the spec's
decision D7. -/
def Obligations.MismatchedChecksumARejects : Prop :=
  ∀ (s : State) (v : Byte), s.st = .checkA → v ≠ s.ckA →
    (s.totalCnt.toNat ≠ params.statsThreshold →
      exec (.caMism v) s = .next { s with st := .seek1 } ∧
      step (present (Item.byte v).pins s) = .next { s with st := .seek1, events := [], result := none }) ∧
    (s.totalCnt.toNat = params.statsThreshold →
      exec (.caMism v) s = .next { s with
        st := .seek1, totalCnt := 0, goodCnt := 0, events := s.events ++ [.statsReport s.goodCnt s.totalCnt] } ∧
      step (present (Item.byte v).pins s) = .next { s with
        st := .seek1, totalCnt := 0, goodCnt := 0, events := [.statsReport s.goodCnt s.totalCnt],
        result := none })

/-- Spec R153, R184: the success is counted, the Sample of the buffer is emitted, and then the threshold is tested with the
new count. Where the count does not fit eight bits, which no reachable state does, its new value `g` is free (log entry
5). The threshold test at this place and the order of the events are the spec's decisions D7 and D19. -/
def Obligations.MatchingChecksumBEmitsTheSample : Prop :=
  ∀ (s : State) (p : Payload), s.st = .checkB → s.pl.bytes = payloadBytes p →
    ∃ g d, (s.goodCnt.toNat < 255 → g = s.goodCnt + 1 ∧ d = s.draws) ∧
      (s.totalCnt.toNat ≠ params.statsThreshold →
        exec (.cbMatch s.ckB) s = .next { s with
          st := .seek1, goodCnt := g, draws := d, events := s.events ++ [.sample (decodePayload p)] } ∧
        step (present (Item.byte s.ckB).pins s) = .next { s with
          st := .seek1, goodCnt := g, draws := d, events := [.sample (decodePayload p)], result := none }) ∧
      (s.totalCnt.toNat = params.statsThreshold →
        exec (.cbMatch s.ckB) s = .next { s with
          st := .seek1, totalCnt := 0, goodCnt := 0, draws := d,
          events := s.events ++ [.sample (decodePayload p), .statsReport g s.totalCnt] } ∧
        step (present (Item.byte s.ckB).pins s) = .next { s with
          st := .seek1, totalCnt := 0, goodCnt := 0, draws := d,
          events := [.sample (decodePayload p), .statsReport g s.totalCnt], result := none })

/-- Spec R154, R204. The threshold test at this place is the spec's decision D7. -/
def Obligations.MismatchedChecksumBRejects : Prop :=
  ∀ (s : State) (v : Byte), s.st = .checkB → v ≠ s.ckB →
    (s.totalCnt.toNat ≠ params.statsThreshold →
      exec (.cbMism v) s = .next { s with st := .seek1 } ∧
      step (present (Item.byte v).pins s) = .next { s with st := .seek1, events := [], result := none }) ∧
    (s.totalCnt.toNat = params.statsThreshold →
      exec (.cbMism v) s = .next { s with
        st := .seek1, totalCnt := 0, goodCnt := 0, events := s.events ++ [.statsReport s.goodCnt s.totalCnt] } ∧
      step (present (Item.byte v).pins s) = .next { s with
        st := .seek1, totalCnt := 0, goodCnt := 0, events := [.statsReport s.goodCnt s.totalCnt],
        result := none })

/-! ## The internal operations -/

/-- Spec R101. -/
def Obligations.ClearZeroesTheAccumulators : Prop :=
  ∀ s : State, exec .ckClear s = .next { s with ckA := 0#8, ckB := 0#8 }

/-- Spec R102, R104: both additions modulo 256, and `b` takes the new `a`. -/
def Obligations.AbsorbAddsModulo256 : Prop :=
  ∀ (s : State) (v : Byte), ∃ a b, exec (.ckAbsorb v) s = .next { s with ckA := a, ckB := b } ∧
    a.toNat = (s.ckA.toNat + v.toNat) % 256 ∧ b.toNat = (s.ckB.toNat + a.toNat) % 256

/-- Spec R121, R9: the little-endian field, read as two's complement (G1). The result leaves in the step's result (log entry
3). -/
def Obligations.Le32sReadsASignedField : Prop :=
  ∀ (s : State) (p : List Byte) (k : Nat) (b0 b1 b2 b3 : Byte),
    p[k]? = some b0 → p[k + 1]? = some b1 → p[k + 2]? = some b2 → p[k + 3]? = some b3 →
    ∃ r : BitVec 32, exec (.le32s p k) s = .next { s with result := some (.int32 r) } ∧
      r.toInt = sext 32 (b0.toNat + 256 * b1.toNat + 65536 * b2.toNat + 16777216 * b3.toNat)

/-- Spec R122, R9: as for 32 bits. -/
def Obligations.Le16sReadsASignedField : Prop :=
  ∀ (s : State) (p : List Byte) (k : Nat) (b0 b1 : Byte), p[k]? = some b0 → p[k + 1]? = some b1 →
    ∃ r : BitVec 16, exec (.le16s p k) s = .next { s with result := some (.int16 r) } ∧
      r.toInt = sext 16 (b0.toNat + 256 * b1.toNat)

/-- Spec R120, R123 to R126, R132: the three signed fields of a payload, and their bit patterns byte for byte; byte 0 does
not enter. Two's complement is the spec's own reading of "signed" (log entry 10, PRESUMED, G1), and the field in which the
result leaves is the model's choice (log entry 3). -/
def Obligations.DecodeExtractsTheThreeFields : Prop :=
  ∀ (s : State) (p : Payload) (b0 b1 b2 b3 b4 b5 b6 b7 b8 b9 b10 : Byte),
    payloadBytes p = [b0, b1, b2, b3, b4, b5, b6, b7, b8, b9, b10] →
    ∃ x : Sample, exec (.decode p) s = .next { s with result := some (.sample x) } ∧
      x.load.toInt = sext 32 (b1.toNat + 256 * b2.toNat + 65536 * b3.toNat + 16777216 * b4.toNat) ∧
      x.steps.toInt = sext 32 (b5.toNat + 256 * b6.toNat + 65536 * b7.toNat + 16777216 * b8.toNat) ∧
      x.displacement.toInt = sext 16 (b9.toNat + 256 * b10.toNat) ∧
      x.load = b4 ++ b3 ++ b2 ++ b1 ∧ x.steps = b8 ++ b7 ++ b6 ++ b5 ∧ x.displacement = b10 ++ b9

/-- Spec R183, R186: the test is `=`, the report carries both counts as they stood, and both counters are cleared together.
The operation is the spec's; where it stands is its decision D7. -/
def Obligations.ThresholdReportsAndClears : Prop :=
  ∀ (s : State) (g : Counter),
    (s.totalCnt.toNat = params.statsThreshold → exec (.statCheck g) s = .next { s with
      totalCnt := 0, goodCnt := 0, events := s.events ++ [.statsReport g s.totalCnt] }) ∧
    (s.totalCnt.toNat ≠ params.statsThreshold → exec (.statCheck g) s = .next s)

/-! ## Who writes what (spec R20) -/

/-- Spec R20, R22, R55, R56: the payload buffer is written by TY.SAMPLE, BUF.APP, BUF.LAST and RESET alone; an append stores
to the index `pl_len` and leaves every other index as it reads. -/
def Obligations.OnlyFourOperationsWriteTheBuffer : Prop :=
  ∀ (i : Instr) (s t : State), exec i s = .next t →
    (i.mnemonic ∉ ["TY.SAMPLE", "BUF.APP", "BUF.LAST", "RESET"] →
      t.pl.len = s.pl.len ∧ ∀ a, t.pl.read a = s.pl.read a) ∧
    (∀ v, i = .bufApp v ∨ i = .bufLast v →
      t.pl.len = s.pl.len + 1 ∧ (∀ a, a ≠ appendAddress s → t.pl.read a = s.pl.read a) ∧
      (s.pl.wf → t.pl.read (appendAddress s) = some v)) ∧
    (i = .tySample → t.pl.len = 1 ∧ t.pl.read 0 = some params.typeSample ∧ ∀ a, a ≠ 0 → t.pl.read a = none) ∧
    (i = .reset → t.pl.len = 0 ∧ ∀ a, t.pl.read a = none)

/-- Spec R20, R24, R109: the accumulators are written by TY.SAMPLE, BUF.APP, BUF.LAST, by the engine's own operations and by
RESET, and by nothing else. -/
def Obligations.OnlyTheEngineWritesTheAccumulators : Prop :=
  ∀ (i : Instr) (s t : State), exec i s = .next t →
    i.mnemonic ∉ ["TY.SAMPLE", "BUF.APP", "BUF.LAST", "CK.CLEAR", "CK.ABSORB", "RESET"] →
    t.ckA = s.ckA ∧ t.ckB = s.ckB

/-- Spec R181, R182, R188, R191: who writes the counters. Skipped bytes, sync losses and unknown types do not. -/
def Obligations.OnlyAttemptsAndTheirEndsWriteTheCounters : Prop :=
  ∀ (i : Instr) (s t : State), exec i s = .next t →
    (i.mnemonic ∉ ["TY.SAMPLE", "CA.MISM", "CB.MATCH", "CB.MISM", "STAT.CHECK", "RESET"] →
      t.totalCnt = s.totalCnt ∧ t.goodCnt = s.goodCnt) ∧
    (i = .tySample → t.goodCnt = s.goodCnt) ∧
    (i.mnemonic ∈ ["CA.MISM", "CB.MATCH", "CB.MISM", "STAT.CHECK"] →
      (t.totalCnt = s.totalCnt ∨ (s.totalCnt.toNat = params.statsThreshold ∧ t.totalCnt = 0 ∧ t.goodCnt = 0))) ∧
    (i.mnemonic ∈ ["CA.MISM", "CB.MISM", "STAT.CHECK"] → (t.goodCnt = s.goodCnt ∨ t.totalCnt = 0))

/-- Spec R20, R35, R207 and log entries 1, 2, 3, 5: who changes `st`, who emits, and what becomes of the model's own
fields. -/
def Obligations.SequencingEventsAndOwnFieldsAreFramed : Prop :=
  ∀ (i : Instr) (s t : State), exec i s = .next t →
    (i.mnemonic ∈ ["S1.MISS", "BUF.APP", "CK.CLEAR", "CK.ABSORB", "LE32S", "LE16S", "DECODE", "STAT.CHECK", "IDLE"] →
      t.st = s.st) ∧
    (i.mnemonic ∉ ["TY.UNK", "CA.MISM", "CB.MATCH", "CB.MISM", "STAT.CHECK"] → t.events = s.events) ∧
    (i.mnemonic ∉ ["LE32S", "LE16S", "DECODE"] → t.result = s.result) ∧
    (i.mnemonic ∉ ["TY.SAMPLE", "CB.MATCH"] → t.draws = s.draws) ∧
    t.inputs = s.inputs

/-- Spec R143 to R154, R127, R121, R122, U1, U7, U8: where a meaning stops, and with which refusal. A transition stops
outside its operand line (log entry 4), CB.MATCH where the buffer is no payload, LE32S and LE16S where the field is not
inside the sequence; nothing else stops. -/
def Obligations.MeaningsStopOnlyWhereNoRuleApplies : Prop :=
  ∀ (i : Instr) (s : State) (r : Refusal), exec i s = .refused r ↔
    (i.mnemonic ∈ ["S1.HIT", "S1.MISS", "S2.HIT", "S2.MISS", "TY.SAMPLE", "TY.UNK", "BUF.APP", "BUF.LAST", "CA.MATCH",
        "CA.MISM", "CB.MATCH", "CB.MISM"] ∧ i.selected s.selCtx = false ∧ r = .notSelected) ∨
    ((∃ v, i = .cbMatch v) ∧ i.selected s.selCtx = true ∧ s.pl.len ≠ params.payloadLen ∧ r = .payloadLength) ∨
    ((∃ p k, i = .le32s p k ∧ p.length < k + 4) ∧ r = .fieldOutOfRange) ∨
    ((∃ p k, i = .le16s p k ∧ p.length < k + 2) ∧ r = .fieldOutOfRange)

/-! ## Invariants -/

/-- Spec R33, R36. -/
def Obligations.InvariantHoldsAtReset : Prop := Inv State.reset

/-- Spec R33: every step keeps the invariant. -/
def Obligations.EveryStepKeepsTheInvariant : Prop :=
  ∀ s t : State, Inv s → step s = .next t → Inv t

/-- Spec R78, R159, R200: in every state of the invariant, whatever is presented, the step completes; nothing traps. -/
def Obligations.EveryStepCompletes : Prop :=
  ∀ (s : State) (p : Pins), Inv s → StepCompletes s ∧ StepCompletes (present p s)

/-- Spec R22, R50, R156 and log entry 12: every operation keeps the buffer's form, in every state that has it. -/
def Obligations.BufferFormIsKept : Prop :=
  ∀ (i : Instr) (s t : State), s.pl.wf → exec i s = .next t → t.pl.wf

/-- Spec R185, R33 (e), (g): in a step from a state of the invariant each counter stays, grows by one, or both are cleared;
a report has the total at the threshold and the good count at most the total. -/
def Obligations.CountersNeverWrap : Prop :=
  ∀ s t : State, Inv s → step s = .next t →
    ((t.totalCnt.toNat = s.totalCnt.toNat ∨ t.totalCnt.toNat = s.totalCnt.toNat + 1) ∧
        (t.goodCnt.toNat = s.goodCnt.toNat ∨ t.goodCnt.toNat = s.goodCnt.toNat + 1) ∨
      t.totalCnt = 0 ∧ t.goodCnt = 0) ∧
    t.draws = s.draws ∧
    ∀ g n, Event.statsReport g n ∈ t.events → n.toNat = params.statsThreshold ∧ g.toNat ≤ n.toNat

/-! ## The checksum -/

/-- Spec R100, R103, R106: the closed form of the two sums. -/
def Obligations.ChecksumClosedForm : Prop :=
  ∀ bs : List Byte,
    (checksum bs).1.toNat = (bs.map (·.toNat)).sum % 256 ∧
    (checksum bs).2.toNat = (bs.zipIdx.map fun e => (bs.length - e.2) * e.1.toNat).sum % 256

/-- Spec R107: exchanging two bytes keeps `a` and changes `b` by the distance times the difference; so exchanging two
unequal neighbours always changes `b`. -/
def Obligations.ChecksumSeesExchangedNeighbours : Prop :=
  (∀ (xs ys zs : List Byte) (u v : Byte),
    (checksum (xs ++ v :: ys ++ u :: zs)).1 = (checksum (xs ++ u :: ys ++ v :: zs)).1 ∧
    (checksum (xs ++ v :: ys ++ u :: zs)).2 =
      (checksum (xs ++ u :: ys ++ v :: zs)).2 + BitVec.ofNat 8 (ys.length + 1) * (v - u)) ∧
  (∀ (xs zs : List Byte) (u v : Byte), u ≠ v →
    (checksum (xs ++ v :: u :: zs)).2 ≠ (checksum (xs ++ u :: v :: zs)).2)

/-- Spec R108: one changed byte always changes `a`; a zero byte before a sequence changes nothing, a zero byte after it adds
`a` into `b`. -/
def Obligations.ChecksumSeesOneChangedByte : Prop :=
  (∀ (xs ys : List Byte) (u v : Byte), u ≠ v →
    (checksum (xs ++ u :: ys)).1 ≠ (checksum (xs ++ v :: ys)).1) ∧
  (∀ s : List Byte, checksum (0#8 :: s) = checksum s) ∧
  (∀ s : List Byte, checksum (s ++ [0#8]) = ((checksum s).1, (checksum s).2 + (checksum s).1))

/-! ## The decoder and the frame builder -/

/-- Spec R129, R126: `Decode` and `Encode` are inverse on payloads of the SAMPLE type, and byte 0 is ignored. -/
def Obligations.DecodeIsABijectionOnSamplePayloads : Prop :=
  (∀ x : Sample, decodePayload (payloadFor x) = x) ∧
  (∀ p : Payload, (payloadBytes p).head? = some params.typeSample → payloadFor (decodePayload p) = p) ∧
  (∀ p q : Payload, (payloadBytes p).tail = (payloadBytes q).tail → decodePayload p = decodePayload q) ∧
  (∀ x : Sample, (encodeSample x).length = params.frameLen ∧
    slice (encodeSample x) 2 params.payloadLen = payloadBytes (payloadFor x))

/-! ## The whole machine, over runs -/

/-- Spec R160, R163: from every state of the invariant in SEEK1, the 15 bytes of any Sample's frame, whatever its data bytes
are, give that Sample in the fifteenth step, and no other event but a report that falls due in that step. That a report
falls due there, and that it stands after the Sample, are the spec's decisions D7 and D19 (log entries 17 and 18). -/
def Obligations.EveryValidFrameIsAccepted : Prop :=
  ∀ (s : State) (x : Sample), Inv s → s.st = .seek1 →
    ∃ t, t.st = .seek1 ∧ t.pl.bytes = payloadBytes (payloadFor x) ∧
      (s.totalCnt.toNat + 1 ≠ params.statsThreshold →
        run s (byteItems (encodeSample x)) = some (t, [(14, .sample x)]) ∧
        t.totalCnt = s.totalCnt + 1 ∧ t.goodCnt = s.goodCnt + 1) ∧
      (s.totalCnt.toNat + 1 = params.statsThreshold →
        run s (byteItems (encodeSample x)) =
          some (t, [(14, .sample x), (14, .statsReport (s.goodCnt + 1) (s.totalCnt + 1))]) ∧
        t.totalCnt = 0 ∧ t.goodCnt = 0)

/-- Spec R161: a Sample is emitted only when the last 15 bytes, with idle items ignored and no reset among them, are exactly
its frame. -/
def Obligations.EmittedSampleWasOnTheWire : Prop :=
  ∀ (items : List Item) (it : Item) (t u : State) (ev : List (Nat × Event)) (x : Sample),
    run State.reset items = some (t, ev) → step (feed it t) = .next u → Event.sample x ∈ u.events →
    ∃ before, bytesSinceReset (items ++ [it]) = before ++ encodeSample x

/-- Spec R162 with its premise, as conflict C1 settles it: noise that alone ends in SEEK1 and emits no Sample does not stop
the frame that follows it. -/
def Obligations.FrameAfterHarmlessNoiseIsAccepted : Prop :=
  ∀ (noise : List Item) (t : State) (ev : List (Nat × Event)) (x : Sample),
    run State.reset noise = some (t, ev) → t.st = .seek1 → samplesOf ev = [] →
    ∃ u ev', run State.reset (noise ++ byteItems (encodeSample x)) = some (u, ev') ∧ samplesOf ev' = [x]

/-- Spec R162, R144: bytes with no sync byte among them, met in SEEK1, change nothing and emit nothing. -/
def Obligations.NoiseWithoutSyncBytesIsIgnored : Prop :=
  ∀ (s : State) (noise : List Byte), s.st = .seek1 → params.sync1 ∉ noise →
    ∃ t, run s (byteItems noise) = some (t, []) ∧ t.block = s.block

/-- Spec R141: idle items may be removed anywhere; the final state of the block and the events, but for their indices, are
the same. -/
def Obligations.IdleItemsMayBeRemoved : Prop :=
  ∀ (s t : State) (items : List Item) (ev : List (Nat × Event)), run s items = some (t, ev) →
    ∃ u ev', run s (items.filter (· != .idle)) = some (u, ev') ∧ u.block = t.block ∧
      ev'.map (·.2) = ev.map (·.2)

/-- Spec R157: from every state of the invariant outside SEEK1, fourteen bytes, whatever they are, bring the machine through
SEEK1; no run of bytes keeps it out for longer. -/
def Obligations.FourteenBytesReturnToSeek1 : Prop :=
  ∀ (s : State) (bs : List Byte), Inv s → s.st ≠ .seek1 → bs.length = 14 →
    ∃ k, 1 ≤ k ∧ k ≤ 14 ∧ ∃ t ev, run s (byteItems (bs.take k)) = some (t, ev) ∧ t.st = .seek1

/-- Spec R165: the possible event lists of a step. The order of a Sample and a report is the spec's decision D19. -/
def Obligations.EventListsOfAStep : Prop :=
  ∀ s t : State, step s = .next t →
    t.events = [] ∨
    (∃ v, s.st = .type ∧ t.events = [.unknownType v]) ∨
    (∃ x, s.st = .checkB ∧ t.events = [.sample x]) ∨
    (∃ x g n, s.st = .checkB ∧ n.toNat = params.statsThreshold ∧ t.events = [.sample x, .statsReport g n]) ∨
    (∃ g n, (s.st = .checkA ∨ s.st = .checkB) ∧ n.toNat = params.statsThreshold ∧ t.events = [.statsReport g n])

/-- Spec R34, R35, R165: after a step each output port shows exactly the one event of its kind, and `unk_valid` never
stands beside another. The ports are the spec's decision D2. -/
def Obligations.PortsShowTheEventsOfAStep : Prop :=
  ∀ s t : State, step s = .next t →
    (∀ x, t.smpPort = some x ↔ Event.sample x ∈ t.events) ∧
    (∀ v, t.unkPort = some v ↔ Event.unknownType v ∈ t.events) ∧
    (∀ g n, t.statPort = some (g, n) ↔ Event.statsReport g n ∈ t.events) ∧
    (t.unkPort.isSome = true → t.smpPort = none ∧ t.statPort = none) ∧
    t.inReady = true

/-- Spec R187: no feedback from the statistics. Two states that differ only in their counters go through the same run but
for the counters and the reports. -/
def Obligations.StatisticsDoNotFeedBack : Prop :=
  ∀ (s s' t : State) (items : List Item) (ev : List (Nat × Event)),
    s.st = s'.st → s.pl = s'.pl → s.ckA = s'.ckA → s.ckB = s'.ckB → run s items = some (t, ev) →
    ∃ t' ev', run s' items = some (t', ev') ∧
      t.st = t'.st ∧ t.pl = t'.pl ∧ t.ckA = t'.ckA ∧ t.ckB = t'.ckB ∧ frameEventsOf ev = frameEventsOf ev'

/-- Spec R112, R109: of a buffered payload nothing but the two checksum bytes decides; in CHECK_A the next two bytes give a
Sample exactly when they are the two sums of the buffer. -/
def Obligations.AcceptanceIsByChecksumAlone : Prop :=
  ∀ (s : State) (x y : Byte), Inv s → s.st = .checkA →
    ∃ t ev, run s (byteItems [x, y]) = some (t, ev) ∧
      ((∃ w, samplesOf ev = [w]) ↔ (x, y) = checksum s.pl.bytes) ∧
      (∀ w, samplesOf ev = [w] → ∃ p, s.pl.bytes = payloadBytes p ∧ w = decodePayload p)

/-- Spec R242, R245: of `k` extra sync bytes directly before a frame, the frame survives exactly when `k` is a multiple of
three; the extra bytes alone give an unknown-type event for every third. It rests on the spec's decision D17, that a byte
which ends a frame attempt is dropped and not tested again (log entry 14, DEDUCED). -/
def Obligations.StraySyncBytesLoseTheFrame : Prop :=
  ∀ (s : State) (k : Nat) (x : Sample), Inv s → s.st = .seek1 →
    (∃ t ev, run s (byteItems (List.replicate k params.sync1)) = some (t, ev) ∧
      ev.map (·.2) = List.replicate (k / 3) (.unknownType params.sync1)) ∧
    (∃ t ev, run s (byteItems (List.replicate k params.sync1 ++ encodeSample x)) = some (t, ev) ∧
      samplesOf ev = if k % 3 = 0 then [x] else [])

/-- Spec R164, R108: a valid frame with one data byte or checksum byte changed, met in SEEK1, gives no Sample, is counted as
an attempt and not as good, and the machine is in SEEK1 after the byte that shows the mismatch: offset 13 for the data
bytes and checksum A, offset 14 for checksum B. That a report falls due in that step is the spec's decision D7 (log entry
17). The offsets before 3 are OneCorruptedHeadByteLosesTheFrame. -/
def Obligations.OneCorruptedByteIsAlwaysCaught : Prop :=
  ∀ (s : State) (x : Sample) (j : Nat) (v : Byte), Inv s → s.st = .seek1 → 3 ≤ j → j ≤ 14 →
    (encodeSample x)[j]? ≠ some v →
    ∃ t ev, run s (byteItems (((encodeSample x).set j v).take (if j = 14 then 15 else 14))) = some (t, ev) ∧
      t.st = .seek1 ∧ samplesOf ev = [] ∧
      (s.totalCnt.toNat + 1 ≠ params.statsThreshold →
        ev = [] ∧ t.totalCnt = s.totalCnt + 1 ∧ t.goodCnt = s.goodCnt) ∧
      (s.totalCnt.toNat + 1 = params.statsThreshold →
        reportsOf ev = [(s.goodCnt, s.totalCnt + 1)] ∧ t.totalCnt = 0 ∧ t.goodCnt = 0)

/-- Scenario S4 of 95_test_vectors.md and spec R183, R184: 150 valid frames from reset, whatever their Samples, give the 150
Samples in order and one report, 150 of 150, and leave both counters at 0. -/
def Obligations.OneHundredFiftyFramesAreReported : Prop :=
  ∀ xs : List Sample, xs.length = 150 →
    ∃ t ev, run State.reset (byteItems (xs.flatMap encodeSample)) = some (t, ev) ∧
      samplesOf ev = xs ∧ reportsOf ev = [(150, 150)] ∧ t.st = .seek1 ∧ t.totalCnt = 0 ∧ t.goodCnt = 0

/-- Spec R182: between two clears the good count grows by one for each Sample emitted. -/
def Obligations.GoodCountIsTheNumberOfSamples : Prop :=
  ∀ (s t : State) (items : List Item) (ev : List (Nat × Event)), Inv s → run s items = some (t, ev) →
    Item.reset ∉ items → reportsOf ev = [] →
    t.goodCnt.toNat = s.goodCnt.toNat + (samplesOf ev).length

/-- Spec R60, R140 and log entry 1: the machine with items queued at its input goes through exactly the run over those items
presented one by one. -/
def Obligations.QueuedItemsRunAsPresented : Prop :=
  ∀ (s t : State) (items : List Item) (ev : List (Nat × Event)), run s items = some (t, ev) →
    Sys2Proof.core.run items.length { s with inputs := items.map Item.pins } = .next t

/-- Spec R164: a valid frame with one of its first three bytes changed, met in SEEK1, is lost: after those three bytes the
block is as it was, and nothing was emitted but the unknown type, where the type byte is the changed one; and the 15 bytes
give no Sample, whatever the rest is taken for. That the byte which ends the attempt is dropped is the spec's decision D17
(log entry 14, DEDUCED). -/
def Obligations.OneCorruptedHeadByteLosesTheFrame : Prop :=
  ∀ (s : State) (x : Sample) (j : Nat) (v : Byte), Inv s → s.st = .seek1 → j ≤ 2 → (encodeSample x)[j]? ≠ some v →
    (∃ t, run s (byteItems (((encodeSample x).set j v).take 3)) =
        some (t, if j = 2 then [(2, .unknownType v)] else []) ∧ t.block = s.block) ∧
    ∃ t ev, run s (byteItems ((encodeSample x).set j v)) = some (t, ev) ∧ samplesOf ev = []

/-! ## Every configuration (decision D13, log entry 25) -/

/-- Spec R5, decision D13, U5 and R76, R77, R142: decoding and encoding agree at every configuration, not only at the
document's values. What the constraints of a configuration give is that each well-formed operation is selected somewhere. -/
def Obligations.DecodeInvertsEncodeAtEveryConfiguration : Prop :=
  ∀ c : Config,
    (∀ (x : SelCtx) (it : Item) (i : Instr),
      decodeItem x it.pins.item c = .ok i ↔ i.selected x c = true ∧ encode i c = some it) ∧
    (c.Valid → ∀ (i : Instr) (it : Item), i.wf c = true → encode i c = some it → ∃ x, decodeItem x it c = .ok i) ∧
    (∀ (x : SelCtx) (it : Item) (i : Instr), decodeItem x it c = .ok i → i.wf c = true)

/-- Spec R5, decision D13, U5 and R33: the machine at any configuration whose counters have the width of the model's keeps
that configuration's invariant in every step, completes every step from it, and has it at reset; and the step is that
machine at the document's values. That the counters' width stays the document's is the model's (log entry 25). -/
def Obligations.EveryConfigurationKeepsItsInvariant : Prop :=
  (∀ c : Config, c.Valid → c.cntW = params.cntW →
    Inv State.reset c ∧
    (∀ s t : State, Inv s c → stepWith c s = .next t → Inv t c) ∧
    (∀ s : State, Inv s c → ∃ t, stepWith c s = .next t)) ∧
  (∀ s : State, step s = stepWith params s)
end

