-- ==== Sys2Proof/Laws/State.lean ====
section
/-! SUPPORT. One lemma per field per update, so that no proof unfolds a record update. -/

namespace Sys2Proof.Machine

@[simp] theorem goto_st (x : St) (s : State) : (goto x s).st = x := rfl
@[simp] theorem goto_pl (x : St) (s : State) : (goto x s).pl = s.pl := rfl
@[simp] theorem goto_ckA (x : St) (s : State) : (goto x s).ckA = s.ckA := rfl
@[simp] theorem goto_ckB (x : St) (s : State) : (goto x s).ckB = s.ckB := rfl
@[simp] theorem goto_totalCnt (x : St) (s : State) : (goto x s).totalCnt = s.totalCnt := rfl
@[simp] theorem goto_goodCnt (x : St) (s : State) : (goto x s).goodCnt = s.goodCnt := rfl
@[simp] theorem goto_inputs (x : St) (s : State) : (goto x s).inputs = s.inputs := rfl
@[simp] theorem goto_events (x : St) (s : State) : (goto x s).events = s.events := rfl
@[simp] theorem goto_result (x : St) (s : State) : (goto x s).result = s.result := rfl
@[simp] theorem goto_draws (x : St) (s : State) : (goto x s).draws = s.draws := rfl

@[simp] theorem emit_st (e : Event) (s : State) : (emit e s).st = s.st := rfl
@[simp] theorem emit_pl (e : Event) (s : State) : (emit e s).pl = s.pl := rfl
@[simp] theorem emit_ckA (e : Event) (s : State) : (emit e s).ckA = s.ckA := rfl
@[simp] theorem emit_ckB (e : Event) (s : State) : (emit e s).ckB = s.ckB := rfl
@[simp] theorem emit_totalCnt (e : Event) (s : State) : (emit e s).totalCnt = s.totalCnt := rfl
@[simp] theorem emit_goodCnt (e : Event) (s : State) : (emit e s).goodCnt = s.goodCnt := rfl
@[simp] theorem emit_inputs (e : Event) (s : State) : (emit e s).inputs = s.inputs := rfl
@[simp] theorem emit_events (e : Event) (s : State) : (emit e s).events = s.events ++ [e] := rfl
@[simp] theorem emit_result (e : Event) (s : State) : (emit e s).result = s.result := rfl
@[simp] theorem emit_draws (e : Event) (s : State) : (emit e s).draws = s.draws := rfl

@[simp] theorem clearBuffer_st (s : State) : (clearBuffer s).st = s.st := rfl
@[simp] theorem clearBuffer_pl (s : State) : (clearBuffer s).pl = [] := rfl
@[simp] theorem clearBuffer_ckA (s : State) : (clearBuffer s).ckA = s.ckA := rfl
@[simp] theorem clearBuffer_ckB (s : State) : (clearBuffer s).ckB = s.ckB := rfl
@[simp] theorem clearBuffer_totalCnt (s : State) : (clearBuffer s).totalCnt = s.totalCnt := rfl
@[simp] theorem clearBuffer_goodCnt (s : State) : (clearBuffer s).goodCnt = s.goodCnt := rfl
@[simp] theorem clearBuffer_inputs (s : State) : (clearBuffer s).inputs = s.inputs := rfl
@[simp] theorem clearBuffer_events (s : State) : (clearBuffer s).events = s.events := rfl
@[simp] theorem clearBuffer_result (s : State) : (clearBuffer s).result = s.result := rfl
@[simp] theorem clearBuffer_draws (s : State) : (clearBuffer s).draws = s.draws := rfl

@[simp] theorem appendByte_st (v : Byte) (s : State) : (appendByte v s).st = s.st := rfl
@[simp] theorem appendByte_pl (v : Byte) (s : State) : (appendByte v s).pl = s.pl.append v := rfl
@[simp] theorem appendByte_ckA (v : Byte) (s : State) : (appendByte v s).ckA = s.ckA := rfl
@[simp] theorem appendByte_ckB (v : Byte) (s : State) : (appendByte v s).ckB = s.ckB := rfl
@[simp] theorem appendByte_totalCnt (v : Byte) (s : State) : (appendByte v s).totalCnt = s.totalCnt := rfl
@[simp] theorem appendByte_goodCnt (v : Byte) (s : State) : (appendByte v s).goodCnt = s.goodCnt := rfl
@[simp] theorem appendByte_inputs (v : Byte) (s : State) : (appendByte v s).inputs = s.inputs := rfl
@[simp] theorem appendByte_events (v : Byte) (s : State) : (appendByte v s).events = s.events := rfl
@[simp] theorem appendByte_result (v : Byte) (s : State) : (appendByte v s).result = s.result := rfl
@[simp] theorem appendByte_draws (v : Byte) (s : State) : (appendByte v s).draws = s.draws := rfl

@[simp] theorem engineStep_st (cl ab : Bool) (v : Byte) (s : State) (c : Config) :
    (engineStep cl ab v s c).st = s.st := rfl
@[simp] theorem engineStep_pl (cl ab : Bool) (v : Byte) (s : State) (c : Config) :
    (engineStep cl ab v s c).pl = s.pl := rfl
@[simp] theorem engineStep_ckA (cl ab : Bool) (v : Byte) (s : State) (c : Config) :
    (engineStep cl ab v s c).ckA = (ckEngine cl ab v (s.ckA, s.ckB) c).1 := rfl
@[simp] theorem engineStep_ckB (cl ab : Bool) (v : Byte) (s : State) (c : Config) :
    (engineStep cl ab v s c).ckB = (ckEngine cl ab v (s.ckA, s.ckB) c).2 := rfl
@[simp] theorem engineStep_totalCnt (cl ab : Bool) (v : Byte) (s : State) (c : Config) :
    (engineStep cl ab v s c).totalCnt = s.totalCnt := rfl
@[simp] theorem engineStep_goodCnt (cl ab : Bool) (v : Byte) (s : State) (c : Config) :
    (engineStep cl ab v s c).goodCnt = s.goodCnt := rfl
@[simp] theorem engineStep_inputs (cl ab : Bool) (v : Byte) (s : State) (c : Config) :
    (engineStep cl ab v s c).inputs = s.inputs := rfl
@[simp] theorem engineStep_events (cl ab : Bool) (v : Byte) (s : State) (c : Config) :
    (engineStep cl ab v s c).events = s.events := rfl
@[simp] theorem engineStep_result (cl ab : Bool) (v : Byte) (s : State) (c : Config) :
    (engineStep cl ab v s c).result = s.result := rfl
@[simp] theorem engineStep_draws (cl ab : Bool) (v : Byte) (s : State) (c : Config) :
    (engineStep cl ab v s c).draws = s.draws := rfl

@[simp] theorem bumpTotal_st (s : State) : (bumpTotal s).st = s.st := rfl
@[simp] theorem bumpTotal_pl (s : State) : (bumpTotal s).pl = s.pl := rfl
@[simp] theorem bumpTotal_ckA (s : State) : (bumpTotal s).ckA = s.ckA := rfl
@[simp] theorem bumpTotal_ckB (s : State) : (bumpTotal s).ckB = s.ckB := rfl
@[simp] theorem bumpTotal_totalCnt (s : State) : (bumpTotal s).totalCnt = incCounter s.totalCnt s.draws := rfl
@[simp] theorem bumpTotal_goodCnt (s : State) : (bumpTotal s).goodCnt = s.goodCnt := rfl
@[simp] theorem bumpTotal_inputs (s : State) : (bumpTotal s).inputs = s.inputs := rfl
@[simp] theorem bumpTotal_events (s : State) : (bumpTotal s).events = s.events := rfl
@[simp] theorem bumpTotal_result (s : State) : (bumpTotal s).result = s.result := rfl
@[simp] theorem bumpTotal_draws (s : State) : (bumpTotal s).draws = drawsAfterInc s.totalCnt s.draws := rfl

@[simp] theorem bumpGood_st (s : State) : (bumpGood s).st = s.st := rfl
@[simp] theorem bumpGood_pl (s : State) : (bumpGood s).pl = s.pl := rfl
@[simp] theorem bumpGood_ckA (s : State) : (bumpGood s).ckA = s.ckA := rfl
@[simp] theorem bumpGood_ckB (s : State) : (bumpGood s).ckB = s.ckB := rfl
@[simp] theorem bumpGood_totalCnt (s : State) : (bumpGood s).totalCnt = s.totalCnt := rfl
@[simp] theorem bumpGood_goodCnt (s : State) : (bumpGood s).goodCnt = incCounter s.goodCnt s.draws := rfl
@[simp] theorem bumpGood_inputs (s : State) : (bumpGood s).inputs = s.inputs := rfl
@[simp] theorem bumpGood_events (s : State) : (bumpGood s).events = s.events := rfl
@[simp] theorem bumpGood_result (s : State) : (bumpGood s).result = s.result := rfl
@[simp] theorem bumpGood_draws (s : State) : (bumpGood s).draws = drawsAfterInc s.goodCnt s.draws := rfl

@[simp] theorem beginStep_st (s : State) : (beginStep s).st = s.st := rfl
@[simp] theorem beginStep_pl (s : State) : (beginStep s).pl = s.pl := rfl
@[simp] theorem beginStep_ckA (s : State) : (beginStep s).ckA = s.ckA := rfl
@[simp] theorem beginStep_ckB (s : State) : (beginStep s).ckB = s.ckB := rfl
@[simp] theorem beginStep_totalCnt (s : State) : (beginStep s).totalCnt = s.totalCnt := rfl
@[simp] theorem beginStep_goodCnt (s : State) : (beginStep s).goodCnt = s.goodCnt := rfl
@[simp] theorem beginStep_inputs (s : State) : (beginStep s).inputs = s.inputs.tail := rfl
@[simp] theorem beginStep_events (s : State) : (beginStep s).events = [] := rfl
@[simp] theorem beginStep_result (s : State) : (beginStep s).result = none := rfl
@[simp] theorem beginStep_draws (s : State) : (beginStep s).draws = s.draws := rfl

@[simp] theorem giveResult_st (r : OpResult) (s : State) : (giveResult r s).st = s.st := rfl
@[simp] theorem giveResult_pl (r : OpResult) (s : State) : (giveResult r s).pl = s.pl := rfl
@[simp] theorem giveResult_ckA (r : OpResult) (s : State) : (giveResult r s).ckA = s.ckA := rfl
@[simp] theorem giveResult_ckB (r : OpResult) (s : State) : (giveResult r s).ckB = s.ckB := rfl
@[simp] theorem giveResult_totalCnt (r : OpResult) (s : State) : (giveResult r s).totalCnt = s.totalCnt := rfl
@[simp] theorem giveResult_goodCnt (r : OpResult) (s : State) : (giveResult r s).goodCnt = s.goodCnt := rfl
@[simp] theorem giveResult_inputs (r : OpResult) (s : State) : (giveResult r s).inputs = s.inputs := rfl
@[simp] theorem giveResult_events (r : OpResult) (s : State) : (giveResult r s).events = s.events := rfl
@[simp] theorem giveResult_result (r : OpResult) (s : State) : (giveResult r s).result = some r := rfl
@[simp] theorem giveResult_draws (r : OpResult) (s : State) : (giveResult r s).draws = s.draws := rfl

@[simp] theorem present_st (p : Pins) (s : State) : (present p s).st = s.st := rfl
@[simp] theorem present_pl (p : Pins) (s : State) : (present p s).pl = s.pl := rfl
@[simp] theorem present_ckA (p : Pins) (s : State) : (present p s).ckA = s.ckA := rfl
@[simp] theorem present_ckB (p : Pins) (s : State) : (present p s).ckB = s.ckB := rfl
@[simp] theorem present_totalCnt (p : Pins) (s : State) : (present p s).totalCnt = s.totalCnt := rfl
@[simp] theorem present_goodCnt (p : Pins) (s : State) : (present p s).goodCnt = s.goodCnt := rfl
@[simp] theorem present_inputs (p : Pins) (s : State) : (present p s).inputs = p :: s.inputs := rfl
@[simp] theorem present_events (p : Pins) (s : State) : (present p s).events = s.events := rfl
@[simp] theorem present_result (p : Pins) (s : State) : (present p s).result = s.result := rfl
@[simp] theorem present_draws (p : Pins) (s : State) : (present p s).draws = s.draws := rfl

@[simp] theorem feed_st (it : Item) (s : State) : (feed it s).st = s.st := rfl
@[simp] theorem feed_pl (it : Item) (s : State) : (feed it s).pl = s.pl := rfl
@[simp] theorem feed_ckA (it : Item) (s : State) : (feed it s).ckA = s.ckA := rfl
@[simp] theorem feed_ckB (it : Item) (s : State) : (feed it s).ckB = s.ckB := rfl
@[simp] theorem feed_totalCnt (it : Item) (s : State) : (feed it s).totalCnt = s.totalCnt := rfl
@[simp] theorem feed_goodCnt (it : Item) (s : State) : (feed it s).goodCnt = s.goodCnt := rfl
@[simp] theorem feed_inputs (it : Item) (s : State) : (feed it s).inputs = [it.pins] := rfl
@[simp] theorem feed_events (it : Item) (s : State) : (feed it s).events = s.events := rfl
@[simp] theorem feed_result (it : Item) (s : State) : (feed it s).result = s.result := rfl
@[simp] theorem feed_draws (it : Item) (s : State) : (feed it s).draws = s.draws := rfl

@[simp] theorem resetBlock_st (s : State) : (resetBlock s).st = .seek1 := rfl
@[simp] theorem resetBlock_pl (s : State) : (resetBlock s).pl = [] := rfl
@[simp] theorem resetBlock_ckA (s : State) : (resetBlock s).ckA = 0#8 := rfl
@[simp] theorem resetBlock_ckB (s : State) : (resetBlock s).ckB = 0#8 := rfl
@[simp] theorem resetBlock_totalCnt (s : State) : (resetBlock s).totalCnt = 0 := rfl
@[simp] theorem resetBlock_goodCnt (s : State) : (resetBlock s).goodCnt = 0 := rfl
@[simp] theorem resetBlock_inputs (s : State) : (resetBlock s).inputs = s.inputs := rfl
@[simp] theorem resetBlock_events (s : State) : (resetBlock s).events = s.events := rfl
@[simp] theorem resetBlock_result (s : State) : (resetBlock s).result = s.result := rfl
@[simp] theorem resetBlock_draws (s : State) : (resetBlock s).draws = s.draws := rfl

/-! STAT.CHECK keeps everything but the counters and the events. -/

@[simp] theorem statCheckOp_st (g : Counter) (s : State) (c : Config) : (statCheckOp g s c).st = s.st := by
  unfold statCheckOp; split <;> rfl

@[simp] theorem statCheckOp_pl (g : Counter) (s : State) (c : Config) : (statCheckOp g s c).pl = s.pl := by
  unfold statCheckOp; split <;> rfl

@[simp] theorem statCheckOp_ckA (g : Counter) (s : State) (c : Config) : (statCheckOp g s c).ckA = s.ckA := by
  unfold statCheckOp; split <;> rfl

@[simp] theorem statCheckOp_ckB (g : Counter) (s : State) (c : Config) : (statCheckOp g s c).ckB = s.ckB := by
  unfold statCheckOp; split <;> rfl

@[simp] theorem statCheckOp_inputs (g : Counter) (s : State) (c : Config) : (statCheckOp g s c).inputs = s.inputs := by
  unfold statCheckOp; split <;> rfl

@[simp] theorem statCheckOp_result (g : Counter) (s : State) (c : Config) : (statCheckOp g s c).result = s.result := by
  unfold statCheckOp; split <;> rfl

@[simp] theorem statCheckOp_draws (g : Counter) (s : State) (c : Config) : (statCheckOp g s c).draws = s.draws := by
  unfold statCheckOp; split <;> rfl

/-! The recovery of each condition. -/

@[simp] theorem raiseCondition_syncLoss (s : State) : raiseCondition .syncLoss s = goto .seek1 s := rfl
@[simp] theorem raiseCondition_checksumMismatch (s : State) :
    raiseCondition .checksumMismatch s = goto .seek1 s := rfl
@[simp] theorem raiseCondition_unknownType (v : Byte) (s : State) :
    raiseCondition (.unknownType v) s = goto .seek1 (emit (.unknownType v) s) := rfl

/-! Views. -/

@[simp] theorem block_st (s : State) : s.block.st = s.st := rfl
@[simp] theorem block_pl (s : State) : s.block.pl = s.pl := rfl
@[simp] theorem block_ckA (s : State) : s.block.ckA = s.ckA := rfl
@[simp] theorem block_ckB (s : State) : s.block.ckB = s.ckB := rfl
@[simp] theorem block_totalCnt (s : State) : s.block.totalCnt = s.totalCnt := rfl
@[simp] theorem block_goodCnt (s : State) : s.block.goodCnt = s.goodCnt := rfl
@[simp] theorem selCtx_st (s : State) : s.selCtx.st = s.st := rfl
@[simp] theorem selCtx_plLen (s : State) : s.selCtx.plLen = s.pl.len := rfl
@[simp] theorem selCtx_ckA (s : State) : s.selCtx.ckA = s.ckA := rfl
@[simp] theorem selCtx_ckB (s : State) : s.selCtx.ckB = s.ckB := rfl
@[simp] theorem beginStep_selCtx (s : State) : (beginStep s).selCtx = s.selCtx := rfl
@[simp] theorem feed_selCtx (it : Item) (s : State) : (feed it s).selCtx = s.selCtx := rfl

end Sys2Proof.Machine
end

