-- ==== Sys2Proof/Laws/Ops.lean ====
section
/-! SUPPORT. One lemma per shared operation: all it can do. -/

namespace Sys2Proof.Machine

/-! ## The constants -/

@[simp] theorem params_sync1 : params.sync1 = 0x74#8 := rfl
@[simp] theorem params_sync2 : params.sync2 = 0x74#8 := rfl
@[simp] theorem params_typeSample : params.typeSample = 0x06#8 := rfl
@[simp] theorem params_payloadLen : params.payloadLen = 11 := rfl
@[simp] theorem params_frameLen : params.frameLen = 15 := rfl
@[simp] theorem params_offLoad : params.offLoad = 1 := rfl
@[simp] theorem params_offSteps : params.offSteps = 5 := rfl
@[simp] theorem params_offDisp : params.offDisp = 9 := rfl
@[simp] theorem params_ckMod : params.ckMod = 256 := rfl
@[simp] theorem params_statsThreshold : params.statsThreshold = 150 := rfl
/-- No simp lemma: the width stands in the type `Counter`, which a rewrite would take apart. -/
theorem params_cntW : params.cntW = 8 := rfl

theorem params_valid : params.Valid := by decide

/-! ## Selection -/

/-- A guarded meaning answers a next state exactly where its operand line holds and its effect does. -/
theorem whenSelected_eq_next {i : Instr} {s : State} {r : Result} {t : State} {c : Config} :
    whenSelected i s r c = .next t ↔ i.selected s.selCtx c = true ∧ r = .next t := by
  unfold whenSelected; split <;> simp_all

theorem whenSelected_of_selected {i : Instr} {s : State} {c : Config} (h : i.selected s.selCtx c = true) (r : Result) :
    whenSelected i s r c = r := by
  simp [whenSelected, h]

theorem whenSelected_of_not_selected {i : Instr} {s : State} {c : Config} (h : i.selected s.selCtx c = false)
    (r : Result) : whenSelected i s r c = .refused .notSelected := by
  simp [whenSelected, h]

/-! ## The payload buffer -/

@[simp] theorem Memory.len_nil : Memory.len [] = 0 := rfl
@[simp] theorem Memory.bytes_nil : Memory.bytes [] = [] := rfl
@[simp] theorem Memory.clear_eq : Memory.clear = [] := rfl

@[simp] theorem Memory.len_append (m : Memory) (v : Byte) : (m.append v).len = m.len + 1 := by
  simp [Memory.append, Memory.len]

@[simp] theorem Memory.bytes_append (m : Memory) (v : Byte) : (m.append v).bytes = m.bytes ++ [v] := by
  simp [Memory.append, Memory.bytes]

@[simp] theorem Memory.length_bytes (m : Memory) : m.bytes.length = m.len := by
  simp [Memory.bytes, Memory.len]

theorem Memory.wf_nil {c : Config} : Memory.wf [] c := ⟨rfl, Nat.zero_le _⟩

/-- The buffer after reset has the canonical form. -/
theorem reset_buffer_wf : State.reset.pl.wf := Memory.wf_nil

/-- The clear has the canonical form. -/
theorem Memory.wf_clear {c : Config} : Memory.wf Memory.clear c := Memory.wf_nil

/-- The append keeps the canonical form where there is room. -/
theorem Memory.wf_append {m : Memory} {c : Config} (h : m.wf c) (room : m.len < c.payloadLen) (v : Byte) :
    (m.append v).wf c := by
  obtain ⟨addresses, -⟩ := h
  refine ⟨?_, ?_⟩
  · simp [Memory.append, Memory.len, addresses, List.range_succ]
  · simpa [Memory.append, Memory.len] using room

/-- The append leaves every other index as it reads. -/
theorem Memory.read_append_of_ne {m : Memory} {a : Nat} (v : Byte) (h : a ≠ m.len) :
    (m.append v).read a = m.read a := by
  have : (m.len == a) = false := by simpa using fun e => h e.symm
  simp [Memory.append, Memory.read, List.find?_append, this]

/-- A buffer in canonical form reads as its byte sequence. -/
theorem Memory.read_eq_bytes {m : Memory} {c : Config} (h : m.wf c) (a : Nat) : m.read a = m.bytes[a]? := by
  obtain ⟨addresses, -⟩ := h
  induction m using List.reverseRecOn with
  | nil => rfl
  | append_singleton m c ih =>
    have hl : m.map (·.1) = List.range m.length ∧ c.1 = m.length := by
      simpa [List.range_succ] using addresses
    have ih := ih hl.1
    by_cases e : a = m.length
    · have none_before : m.find? (fun c => c.1 == a) = none := by
        rw [List.find?_eq_none]
        intro x hx
        have : x.1 ∈ m.map (·.1) := List.mem_map_of_mem hx
        rw [hl.1, List.mem_range] at this
        simp; omega
      subst e
      simp [Memory.read, Memory.bytes, List.find?_append, none_before, hl.2]
    · have : (c.1 == a) = false := by simpa [hl.2] using fun h' => e h'.symm
      have : Memory.read (m ++ [c]) a = Memory.read m a := by
        simp [Memory.read, List.find?_append, this]
      rw [this, ih]
      by_cases lt : a < m.length
      · simp [Memory.bytes, List.getElem?_append, lt]
      · have : m.length < a := by omega
        simp [Memory.bytes, List.getElem?_append, lt]
        omega

/-- The byte an append stores reads back. -/
theorem Memory.read_append_self {m : Memory} {c : Config} (h : m.wf c) (room : m.len < c.payloadLen) (v : Byte) :
    (m.append v).read m.len = some v := by
  rw [Memory.read_eq_bytes (Memory.wf_append h room v)]
  simp

/-! ## The checksum engine -/

/-- The engine's two additions, as additions of bytes (spec R104). -/
@[simp] theorem absorb_eq (a b v : Byte) : absorb (a, b) v = (a + v, b + (a + v)) := by
  simp only [absorb, params_ckMod, Prod.mk.injEq]
  constructor <;> apply BitVec.eq_of_toNat_eq <;> simp

@[simp] theorem checksum_nil {c : Config} : checksum [] c = (0#8, 0#8) := rfl

/-- Spec R103: one more byte is one more `absorb`. -/
@[simp] theorem checksum_append (s : List Byte) (v : Byte) (c : Config) :
    checksum (s ++ [v]) c = absorb (checksum s c) v c := by
  simp [checksum]

@[simp] theorem ckEngine_absorb (v : Byte) (acc : Byte × Byte) (c : Config) :
    ckEngine false true v acc c = absorb acc v c := rfl
@[simp] theorem ckEngine_clear (v : Byte) (acc : Byte × Byte) (c : Config) : ckEngine true false v acc c = (0#8, 0#8) := rfl
theorem ckEngine_load (v : Byte) (acc : Byte × Byte) (c : Config) : ckEngine true true v acc c = checksum [v] c := rfl

/-- The checksum of one byte (spec R111's vector V2). -/
@[simp] theorem checksum_single (v : Byte) : checksum [v] = (v, v) := by
  have := checksum_append [] v params
  simpa using this

/-! ## The counters -/

theorem incFits_iff_lt {w : Nat} (n : BitVec w) : incFits n = true ↔ n.toNat + 1 < 2 ^ w := by
  rw [incFits, decide_eq_true_eq]

theorem toNat_add_one {w : Nat} {n : BitVec w} (h : n.toNat + 1 < 2 ^ w) : (n + 1).toNat = n.toNat + 1 := by
  cases w with
  | zero => simp at h
  | succ w =>
    have one : 1 % 2 ^ (w + 1) = 1 := Nat.mod_eq_of_lt (Nat.one_lt_two_pow (by omega))
    rw [BitVec.toNat_add, BitVec.ofNat_eq_ofNat, BitVec.toNat_ofNat, one, Nat.mod_eq_of_lt h]

theorem incCounter_of_lt {w : Nat} {n : BitVec w} (h : n.toNat + 1 < 2 ^ w) (d : Nat) : incCounter n d = n + 1 := by
  rw [incCounter, if_pos ((incFits_iff_lt n).2 h)]
  apply BitVec.eq_of_toNat_eq
  rw [toNat_add_one h, BitVec.toNat_ofNat, Nat.mod_eq_of_lt h]

theorem drawsAfterInc_of_lt {w : Nat} {n : BitVec w} (h : n.toNat + 1 < 2 ^ w) (d : Nat) : drawsAfterInc n d = d := by
  rw [drawsAfterInc, if_pos ((incFits_iff_lt n).2 h)]

/-- A counter's width, as a number. -/
@[simp] theorem two_pow_cntW : 2 ^ params.cntW = 256 := by decide

@[simp] theorem Counter.toNat_zero : BitVec.toNat (0 : Counter) = 0 := rfl

theorem Counter.lt (n : Counter) : n.toNat < 256 := n.isLt

theorem Counter.toNat_add_one {n : Counter} (h : n.toNat < 255) : BitVec.toNat (n + 1 : Counter) = n.toNat + 1 :=
  Machine.toNat_add_one (by rw [two_pow_cntW]; omega)

theorem incFits_iff (n : Counter) : incFits n = true ↔ n.toNat < 255 := by
  rw [incFits_iff_lt, two_pow_cntW]; omega

theorem incCounter_of_fits {n : Counter} (h : n.toNat < 255) (d : Nat) : incCounter n d = n + 1 :=
  incCounter_of_lt (by rw [two_pow_cntW]; omega) d

theorem toNat_incCounter {n : Counter} (h : n.toNat < 255) (d : Nat) : (incCounter n d).toNat = n.toNat + 1 := by
  rw [incCounter_of_fits h, Counter.toNat_add_one h]

theorem drawsAfterInc_of_fits {n : Counter} (h : n.toNat < 255) (d : Nat) : drawsAfterInc n d = d :=
  drawsAfterInc_of_lt (by rw [two_pow_cntW]; omega) d

theorem atThreshold_iff (n : Counter) (c : Config) : atThreshold n c = true ↔ n.toNat = c.statsThreshold := by
  simp [atThreshold]

/-- STAT.CHECK at the threshold of a configuration. -/
theorem statCheckOp_eq_at {g : Counter} {s : State} {c : Config} (h : s.totalCnt.toNat = c.statsThreshold) :
    statCheckOp g s c =
      { s with events := s.events ++ [.statsReport g s.totalCnt], totalCnt := 0, goodCnt := 0 } := by
  rw [statCheckOp, if_pos ((atThreshold_iff _ _).2 h)]; rfl

/-- STAT.CHECK anywhere else. -/
theorem statCheckOp_eq_self {g : Counter} {s : State} {c : Config} (h : s.totalCnt.toNat ≠ c.statsThreshold) :
    statCheckOp g s c = s := by
  rw [statCheckOp, if_neg]
  simpa [atThreshold_iff] using h

/-- STAT.CHECK at the threshold. -/
theorem statCheckOp_at {g : Counter} {s : State} (h : s.totalCnt.toNat = 150) :
    statCheckOp g s =
      { s with events := s.events ++ [.statsReport g s.totalCnt], totalCnt := 0, goodCnt := 0 } := statCheckOp_eq_at h

/-- STAT.CHECK anywhere else. -/
theorem statCheckOp_below {g : Counter} {s : State} (h : s.totalCnt.toNat ≠ 150) : statCheckOp g s = s :=
  statCheckOp_eq_self h

/-- All STAT.CHECK can do. -/
theorem statCheckOp_cases (g : Counter) (s : State) :
    (s.totalCnt.toNat = 150 ∧ statCheckOp g s =
      { s with events := s.events ++ [.statsReport g s.totalCnt], totalCnt := 0, goodCnt := 0 }) ∨
    (s.totalCnt.toNat ≠ 150 ∧ statCheckOp g s = s) := by
  by_cases h : s.totalCnt.toNat = 150
  · exact .inl ⟨h, statCheckOp_at h⟩
  · exact .inr ⟨h, statCheckOp_below h⟩

/-! ## Fields and payloads -/

@[simp] theorem length_payloadBytes (p : Payload) : (payloadBytes p).length = 11 := Vector.length_toList

theorem payloadBytes_injective {p q : Payload} (h : payloadBytes p = payloadBytes q) : p = q :=
  Vector.toList_inj.1 h

/-- Every sequence of `PAYLOAD_LEN` bytes is a payload's. -/
theorem exists_payload {bs : List Byte} (h : bs.length = 11) : ∃ p, bs = payloadBytes p :=
  ⟨⟨bs.toArray, by simpa using h⟩, rfl⟩

/-- Only a sequence of `PAYLOAD_LEN` bytes has a Sample. -/
theorem decodeBytes_eq_some {bs : List Byte} {c : Config} {x : Sample} :
    decodeBytes bs c = some x ↔ bs.length = c.payloadLen ∧ x = sampleFields bs c := by
  by_cases h : bs.length = c.payloadLen <;> simp [decodeBytes, h, eq_comm]

theorem decodeBytes_eq_none {bs : List Byte} {c : Config} : decodeBytes bs c = none ↔ bs.length ≠ c.payloadLen := by
  by_cases h : bs.length = c.payloadLen <;> simp [decodeBytes, h]

@[simp] theorem decodeBytes_payload (p : Payload) : decodeBytes (payloadBytes p) = some (decodePayload p) :=
  decodeBytes_eq_some.2 ⟨Vector.length_toList, rfl⟩

/-- Narrowing the signed reading of an `N`-bit value gives its bit pattern. -/
theorem ofInt_sext (N v : Nat) : BitVec.ofInt N (sext N v) = BitVec.ofNat N v := by
  unfold sext
  split
  · simp
  · apply BitVec.eq_of_toNat_eq
    have : ((v : Int) - 2 ^ N) % ((2 ^ N : Nat) : Int) = (v : Int) % ((2 ^ N : Nat) : Int) := by
      push_cast; exact Int.sub_emod_right _ _
    rw [BitVec.toNat_ofInt, BitVec.toNat_ofNat, this]
    omega

theorem signedField_eq (N : Nat) (bs : List Byte) : signedField N bs = BitVec.ofNat N (leNat bs) := ofInt_sext N _

theorem leNat_lt (bs : List Byte) : leNat bs < 256 ^ bs.length := by
  induction bs with
  | nil => simp [leNat]
  | cons b bs ih =>
    have := b.isLt
    simp [leNat, pow_succ]
    omega

/-- The signed value of a field is the two's-complement reading of its unsigned value (spec R9). -/
theorem toInt_signedField {N : Nat} {bs : List Byte} (pos : 0 < N) (h : leNat bs < 2 ^ N) :
    (signedField N bs).toInt = sext N (leNat bs) := by
  rw [signedField_eq, BitVec.toInt_eq_toNat_cond, BitVec.toNat_ofNat, Nat.mod_eq_of_lt h, sext]
  obtain ⟨n, rfl⟩ : ∃ n, N = n + 1 := ⟨N - 1, by omega⟩
  have : 2 * leNat bs < 2 ^ (n + 1) ↔ leNat bs < 2 ^ n := by rw [pow_succ]; omega
  simp [this]

end Sys2Proof.Machine
end

