-- ==== Sys2Proof/Laws/Configured.lean ====
section
/-! SUPPORT. One lemma per meaning, at every configuration: exactly when it answers a next state, and which; and that `exec`
and `step` are the machine at the document's values. -/

namespace Sys2Proof.Machine

theorem exec_eq_execWith (i : Instr) (s : State) : exec i s = execWith params i s := by cases i <;> rfl

theorem step_eq_stepWith (s : State) : step s = stepWith params s := by
  unfold step stepWith
  cases decodeItem s.selCtx s.nextItem <;> simp [exec_eq_execWith]

variable {c : Config} {s t : State}

/-! ## Operand lines -/

theorem selected_bufApp {v : Byte} : Instr.selected s.selCtx (.bufApp v) c = true ↔
    s.st = .buffering ∧ s.pl.len + 1 < c.payloadLen := by
  unfold Instr.selected; rw [Bool.and_eq_true, decide_eq_true_eq, beq_iff_eq]; rfl

theorem selected_bufLast {v : Byte} : Instr.selected s.selCtx (.bufLast v) c = true ↔
    s.st = .buffering ∧ s.pl.len + 1 = c.payloadLen := by
  unfold Instr.selected; rw [Bool.and_eq_true, decide_eq_true_eq, beq_iff_eq]; rfl

/-! ## The twelve transitions -/

theorem execWith_s1Hit_next : execWith c .s1Hit s = .next t ↔ s.st = .seek1 ∧ t = goto .seek2 s := by
  simp [execWith, execS1Hit, whenSelected_eq_next, Instr.selected, eq_comm (a := t)]

theorem execWith_s1Miss_next {v : Byte} :
    execWith c (.s1Miss v) s = .next t ↔ (s.st = .seek1 ∧ v ≠ c.sync1) ∧ t = s := by
  simp [execWith, execS1Miss, whenSelected_eq_next, Instr.selected, eq_comm (a := t)]

theorem execWith_s2Hit_next : execWith c .s2Hit s = .next t ↔ s.st = .seek2 ∧ t = goto .type s := by
  simp [execWith, execS2Hit, whenSelected_eq_next, Instr.selected, eq_comm (a := t)]

theorem execWith_s2Miss_next {v : Byte} :
    execWith c (.s2Miss v) s = .next t ↔ (s.st = .seek2 ∧ v ≠ c.sync2) ∧ t = goto .seek1 s := by
  simp [execWith, execS2Miss, whenSelected_eq_next, Instr.selected, eq_comm (a := t)]

/-- The state TY.SAMPLE leaves. -/
theorem execWith_tySample_next :
    execWith c .tySample s = .next t ↔ s.st = .type ∧ t =
      { s with
        st := .buffering, pl := [(0, c.typeSample)],
        ckA := (checksum [c.typeSample] c).1, ckB := (checksum [c.typeSample] c).2,
        totalCnt := incCounter s.totalCnt s.draws, draws := drawsAfterInc s.totalCnt s.draws } := by
  simp only [execWith, execTySample, whenSelected_eq_next, Instr.selected, selCtx_st, beq_iff_eq,
    Host.Outcome.next.injEq, engineStep, ckEngine_load]
  simp [goto, bumpTotal, appendByte, clearBuffer, Memory.append, Memory.len, eq_comm]

theorem execWith_tyUnk_next {v : Byte} :
    execWith c (.tyUnk v) s = .next t ↔
      (s.st = .type ∧ v ≠ c.typeSample) ∧ t = goto .seek1 (emit (.unknownType v) s) := by
  simp [execWith, execTyUnk, whenSelected_eq_next, Instr.selected, eq_comm (a := t)]

theorem execWith_bufApp_next {v : Byte} :
    execWith c (.bufApp v) s = .next t ↔ (s.st = .buffering ∧ s.pl.len + 1 < c.payloadLen) ∧ t =
      { s with
        pl := s.pl.append v, ckA := (absorb (s.ckA, s.ckB) v c).1, ckB := (absorb (s.ckA, s.ckB) v c).2 } := by
  simp only [execWith, execBufApp, whenSelected_eq_next, selected_bufApp, Host.Outcome.next.injEq, engineStep,
    ckEngine_absorb]
  exact and_congr_right fun _ => eq_comm

theorem execWith_bufLast_next {v : Byte} :
    execWith c (.bufLast v) s = .next t ↔ (s.st = .buffering ∧ s.pl.len + 1 = c.payloadLen) ∧ t =
      { s with
        st := .checkA, pl := s.pl.append v,
        ckA := (absorb (s.ckA, s.ckB) v c).1, ckB := (absorb (s.ckA, s.ckB) v c).2 } := by
  simp only [execWith, execBufLast, whenSelected_eq_next, selected_bufLast, Host.Outcome.next.injEq, engineStep,
    ckEngine_absorb]
  exact and_congr_right fun _ => eq_comm

theorem execWith_caMatch_next {v : Byte} :
    execWith c (.caMatch v) s = .next t ↔ (s.st = .checkA ∧ v = s.ckA) ∧ t = goto .checkB s := by
  simp [execWith, execCaMatch, whenSelected_eq_next, Instr.selected, eq_comm (a := t)]

theorem execWith_caMism_next {v : Byte} :
    execWith c (.caMism v) s = .next t ↔
      (s.st = .checkA ∧ v ≠ s.ckA) ∧ t = statCheckOp s.goodCnt (goto .seek1 s) c := by
  simp [execWith, execCaMism, whenSelected_eq_next, Instr.selected, eq_comm (a := t)]

/-- The state CB.MATCH leaves. -/
theorem execWith_cbMatch_next {v : Byte} :
    execWith c (.cbMatch v) s = .next t ↔ (s.st = .checkB ∧ v = s.ckB) ∧ s.pl.len = c.payloadLen ∧ t =
      statCheckOp (incCounter s.goodCnt s.draws)
        (goto .seek1 (emit (.sample (sampleFields s.pl.bytes c)) (bumpGood s))) c := by
  simp only [execWith, execCbMatch, whenSelected_eq_next, Instr.selected, selCtx_st, selCtx_ckB, Bool.and_eq_true,
    beq_iff_eq]
  refine and_congr_right fun _ => ?_
  by_cases h : s.pl.len = c.payloadLen
  · rw [show decodeBytes s.pl.bytes c = some (sampleFields s.pl.bytes c) from
      decodeBytes_eq_some.2 ⟨(Memory.length_bytes _).trans h, rfl⟩]
    simp [h, eq_comm]
  · rw [show decodeBytes s.pl.bytes c = none from decodeBytes_eq_none.2 (by rwa [Memory.length_bytes])]
    simp [h]

theorem execWith_cbMism_next {v : Byte} :
    execWith c (.cbMism v) s = .next t ↔
      (s.st = .checkB ∧ v ≠ s.ckB) ∧ t = statCheckOp s.goodCnt (goto .seek1 s) c := by
  simp [execWith, execCbMism, whenSelected_eq_next, Instr.selected, eq_comm (a := t)]

/-! ## The internal operations -/

theorem execWith_ckClear_next : execWith c .ckClear s = .next t ↔ t = { s with ckA := 0#8, ckB := 0#8 } := by
  simp [execWith, execCkClear, engineStep, eq_comm]

theorem execWith_ckAbsorb_next {v : Byte} :
    execWith c (.ckAbsorb v) s = .next t ↔ t =
      { s with ckA := (absorb (s.ckA, s.ckB) v c).1, ckB := (absorb (s.ckA, s.ckB) v c).2 } := by
  simp [execWith, execCkAbsorb, engineStep, eq_comm]

theorem execWith_le32s_next {p : List Byte} {k : Nat} :
    execWith c (.le32s p k) s = .next t ↔
      k + 4 ≤ p.length ∧ t = giveResult (.int32 (signedField 32 (slice p k 4))) s := by
  by_cases h : k + 4 ≤ p.length <;> simp [execWith, execLe32s, le32s, fieldBytes, h, eq_comm]

theorem execWith_le16s_next {p : List Byte} {k : Nat} :
    execWith c (.le16s p k) s = .next t ↔
      k + 2 ≤ p.length ∧ t = giveResult (.int16 (signedField 16 (slice p k 2))) s := by
  by_cases h : k + 2 ≤ p.length <;> simp [execWith, execLe16s, le16s, fieldBytes, h, eq_comm]

theorem execWith_decode_next {p : Payload} :
    execWith c (.decode p) s = .next t ↔
      params.payloadLen = c.payloadLen ∧ t = giveResult (.sample (sampleFields (payloadBytes p) c)) s := by
  have len : (payloadBytes p).length = params.payloadLen := Vector.length_toList
  by_cases h : params.payloadLen = c.payloadLen
  · rw [execWith, execDecode, decodeBytes_eq_some.2 ⟨len.trans h, rfl⟩]
    simp only [Host.Outcome.next.injEq, h, true_and]; exact eq_comm
  · rw [execWith, execDecode, decodeBytes_eq_none.2 (by rwa [len])]
    simp only [reduceCtorEq, h, false_and]

theorem execWith_statCheck_next {g : Counter} : execWith c (.statCheck g) s = .next t ↔ t = statCheckOp g s c := by
  simp [execWith, execStatCheck, eq_comm]

/-! ## The items without a byte -/

theorem execWith_reset_next : execWith c .reset s = .next t ↔ t = resetBlock s := by
  simp [execWith, execReset, eq_comm]

theorem execWith_idle_next : execWith c .idle s = .next t ↔ t = s := by
  simp [execWith, execIdle, eq_comm]

end Sys2Proof.Machine
end

