-- ==== Sys2Proof/Laws/Exec.lean ====
section
/-! SUPPORT. The same lemmas for `exec`, the machine at the document's values, with the engine's sums as additions of bytes. -/

namespace Sys2Proof.Machine

variable {s t : State}

/-! ## The twelve transitions -/

theorem exec_s1Hit_next : exec .s1Hit s = .next t ↔ s.st = .seek1 ∧ t = goto .seek2 s := execWith_s1Hit_next

theorem exec_s1Miss_next {v : Byte} :
    exec (.s1Miss v) s = .next t ↔ (s.st = .seek1 ∧ v ≠ params.sync1) ∧ t = s := execWith_s1Miss_next

theorem exec_s2Hit_next : exec .s2Hit s = .next t ↔ s.st = .seek2 ∧ t = goto .type s := execWith_s2Hit_next

theorem exec_s2Miss_next {v : Byte} :
    exec (.s2Miss v) s = .next t ↔ (s.st = .seek2 ∧ v ≠ params.sync2) ∧ t = goto .seek1 s := execWith_s2Miss_next

/-- The state TY.SAMPLE leaves. -/
theorem exec_tySample_next :
    exec .tySample s = .next t ↔ s.st = .type ∧ t =
      { s with
        st := .buffering, pl := [(0, params.typeSample)], ckA := params.typeSample, ckB := params.typeSample,
        totalCnt := incCounter s.totalCnt s.draws, draws := drawsAfterInc s.totalCnt s.draws } := by
  rw [exec_eq_execWith, execWith_tySample_next, checksum_single]

theorem exec_tyUnk_next {v : Byte} :
    exec (.tyUnk v) s = .next t ↔
      (s.st = .type ∧ v ≠ params.typeSample) ∧ t = goto .seek1 (emit (.unknownType v) s) := execWith_tyUnk_next

theorem exec_bufApp_next {v : Byte} :
    exec (.bufApp v) s = .next t ↔ (s.st = .buffering ∧ s.pl.len + 1 < params.payloadLen) ∧ t =
      { s with pl := s.pl.append v, ckA := s.ckA + v, ckB := s.ckB + (s.ckA + v) } := by
  rw [exec_eq_execWith, execWith_bufApp_next, absorb_eq]

theorem exec_bufLast_next {v : Byte} :
    exec (.bufLast v) s = .next t ↔ (s.st = .buffering ∧ s.pl.len + 1 = params.payloadLen) ∧ t =
      { s with st := .checkA, pl := s.pl.append v, ckA := s.ckA + v, ckB := s.ckB + (s.ckA + v) } := by
  rw [exec_eq_execWith, execWith_bufLast_next, absorb_eq]

theorem exec_caMatch_next {v : Byte} :
    exec (.caMatch v) s = .next t ↔ (s.st = .checkA ∧ v = s.ckA) ∧ t = goto .checkB s := execWith_caMatch_next

theorem exec_caMism_next {v : Byte} :
    exec (.caMism v) s = .next t ↔
      (s.st = .checkA ∧ v ≠ s.ckA) ∧ t = statCheckOp s.goodCnt (goto .seek1 s) := execWith_caMism_next

/-- The state CB.MATCH leaves, for the payload the buffer holds. -/
theorem exec_cbMatch_next {v : Byte} :
    exec (.cbMatch v) s = .next t ↔ (s.st = .checkB ∧ v = s.ckB) ∧ ∃ p, s.pl.bytes = payloadBytes p ∧ t =
      statCheckOp (incCounter s.goodCnt s.draws) (goto .seek1 (emit (.sample (decodePayload p)) (bumpGood s))) := by
  rw [exec_eq_execWith, execWith_cbMatch_next]
  refine and_congr_right fun _ => ⟨?_, ?_⟩
  · rintro ⟨h, rfl⟩
    obtain ⟨p, hp⟩ := exists_payload ((Memory.length_bytes _).trans h)
    exact ⟨p, hp, by rw [hp]; rfl⟩
  · rintro ⟨p, hp, rfl⟩
    exact ⟨by rw [← Memory.length_bytes, hp]; exact length_payloadBytes p, by rw [hp]; rfl⟩

theorem exec_cbMism_next {v : Byte} :
    exec (.cbMism v) s = .next t ↔
      (s.st = .checkB ∧ v ≠ s.ckB) ∧ t = statCheckOp s.goodCnt (goto .seek1 s) := execWith_cbMism_next

/-! ## The internal operations -/

theorem exec_ckClear_next : exec .ckClear s = .next t ↔ t = { s with ckA := 0#8, ckB := 0#8 } := execWith_ckClear_next

theorem exec_ckAbsorb_next {v : Byte} :
    exec (.ckAbsorb v) s = .next t ↔ t = { s with ckA := s.ckA + v, ckB := s.ckB + (s.ckA + v) } := by
  rw [exec_eq_execWith, execWith_ckAbsorb_next, absorb_eq]

theorem exec_le32s_next {p : List Byte} {k : Nat} :
    exec (.le32s p k) s = .next t ↔
      k + 4 ≤ p.length ∧ t = giveResult (.int32 (signedField 32 (slice p k 4))) s := execWith_le32s_next (c := params)

theorem exec_le16s_next {p : List Byte} {k : Nat} :
    exec (.le16s p k) s = .next t ↔
      k + 2 ≤ p.length ∧ t = giveResult (.int16 (signedField 16 (slice p k 2))) s := execWith_le16s_next (c := params)

theorem exec_decode_next {p : Payload} :
    exec (.decode p) s = .next t ↔ t = giveResult (.sample (decodePayload p)) s := by
  rw [exec_eq_execWith, execWith_decode_next]
  exact and_iff_right rfl

theorem exec_statCheck_next {g : Counter} : exec (.statCheck g) s = .next t ↔ t = statCheckOp g s :=
  execWith_statCheck_next

/-! ## The items without a byte -/

theorem exec_reset_next : exec .reset s = .next t ↔ t = resetBlock s := execWith_reset_next (c := params)

theorem exec_idle_next : exec .idle s = .next t ↔ t = s := execWith_idle_next (c := params)

end Sys2Proof.Machine
end

