-- ==== Sys2Proof/Laws/Step.lean ====
section
/-! SUPPORT. Pins and items, the transition each state offers, and one step on one presented item. -/

namespace Sys2Proof.Machine

/-! ## Pins and items -/

@[simp] theorem item_pins (it : Item) : it.pins.item = it := by cases it <;> rfl

theorem item_of_rst (p : Pins) (h : p.rst = true) : p.item = .reset := by simp [Pins.item, h]

@[simp] theorem nextItem_feed (it : Item) (s : State) : (feed it s).nextItem = it := by
  simp [State.nextItem, State.nextPins, feed]

@[simp] theorem nextItem_of_no_inputs {s : State} (h : s.inputs = []) : s.nextItem = .idle := by
  simp [State.nextItem, State.nextPins, h]

@[simp] theorem decodeItem_reset (c : SelCtx) : decodeItem c .reset = .ok .reset := rfl
@[simp] theorem decodeItem_idle (c : SelCtx) : decodeItem c .idle = .ok .idle := rfl
@[simp] theorem decodeItem_byte (c : SelCtx) (v : Byte) : decodeItem c (.byte v) = decodeByte c v := rfl

/-! ## The transition each state offers -/

variable {c : SelCtx} {v : Byte}

theorem decodeByte_seek1 (h : c.st = .seek1) :
    decodeByte c v = .ok (if v = params.sync1 then .s1Hit else .s1Miss v) := by simp [decodeByte, h]

theorem decodeByte_seek2 (h : c.st = .seek2) :
    decodeByte c v = .ok (if v = params.sync2 then .s2Hit else .s2Miss v) := by simp [decodeByte, h]

theorem decodeByte_type (h : c.st = .type) :
    decodeByte c v = .ok (if v = params.typeSample then .tySample else .tyUnk v) := by simp [decodeByte, h]

theorem decodeByte_buffering_more (h : c.st = .buffering) (room : c.plLen + 1 < params.payloadLen) :
    decodeByte c v = .ok (.bufApp v) := by
  unfold decodeByte; rw [h]; exact if_pos room

theorem decodeByte_buffering_last (h : c.st = .buffering) (last : c.plLen + 1 = params.payloadLen) :
    decodeByte c v = .ok (.bufLast v) := by
  unfold decodeByte; rw [h]; exact (if_neg (by omega)).trans (if_pos last)

theorem decodeByte_buffering_full (h : c.st = .buffering) (full : params.payloadLen ≤ c.plLen) :
    decodeByte c v = .error .noTransition := by
  unfold decodeByte; rw [h]; exact (if_neg (by omega)).trans (if_neg (by omega))

theorem decodeByte_checkA (h : c.st = .checkA) :
    decodeByte c v = .ok (if v = c.ckA then .caMatch v else .caMism v) := by simp [decodeByte, h]

theorem decodeByte_checkB (h : c.st = .checkB) :
    decodeByte c v = .ok (if v = c.ckB then .cbMatch v else .cbMism v) := by simp [decodeByte, h]

/-! ## One step -/

/-- A step whose item selects an operation is that operation, on the state whose item is consumed. -/
theorem step_of_decode {s : State} {i : Instr} (h : decodeItem s.selCtx s.nextItem = .ok i) :
    step s = exec i (beginStep s) := by simp [step, h]

theorem step_of_reject {s : State} {e : DecodeReject} (h : decodeItem s.selCtx s.nextItem = .error e) :
    step s = .refused .noTransition := by simp [step, h]

/-- The state an operation starts from when one item is presented alone. -/
theorem beginStep_feed (it : Item) (s : State) :
    beginStep (feed it s) = { s with inputs := [], events := [], result := none } := rfl

/-- One step on one presented item. -/
theorem step_feed {s : State} {it : Item} {i : Instr} (h : decodeItem s.selCtx it = .ok i) :
    step (feed it s) = exec i { s with inputs := [], events := [], result := none } := by
  rw [step_of_decode (i := i) (by simpa using h), beginStep_feed]

/-- One step on pins presented before all that was listed. -/
theorem step_present {s : State} {p : Pins} {i : Instr} (h : decodeItem s.selCtx p.item = .ok i) :
    step (present p s) = exec i { s with events := [], result := none } := by
  rw [step_of_decode (i := i) h]; rfl

/-! ## Which transition a byte selects in a state -/

section Selects

variable {s : State} {v : Byte}

theorem decodes_s1Hit (h : s.st = .seek1) : decodeByte s.selCtx params.sync1 = .ok .s1Hit :=
  (decodeByte_seek1 (by exact h)).trans (by rw [if_pos rfl])

theorem decodes_s1Miss (h : s.st = .seek1) (hv : v ≠ params.sync1) : decodeByte s.selCtx v = .ok (.s1Miss v) :=
  (decodeByte_seek1 (by exact h)).trans (by rw [if_neg hv])

theorem decodes_s2Hit (h : s.st = .seek2) : decodeByte s.selCtx params.sync2 = .ok .s2Hit :=
  (decodeByte_seek2 (by exact h)).trans (by rw [if_pos rfl])

theorem decodes_s2Miss (h : s.st = .seek2) (hv : v ≠ params.sync2) : decodeByte s.selCtx v = .ok (.s2Miss v) :=
  (decodeByte_seek2 (by exact h)).trans (by rw [if_neg hv])

theorem decodes_tySample (h : s.st = .type) : decodeByte s.selCtx params.typeSample = .ok .tySample :=
  (decodeByte_type (by exact h)).trans (by rw [if_pos rfl])

theorem decodes_tyUnk (h : s.st = .type) (hv : v ≠ params.typeSample) : decodeByte s.selCtx v = .ok (.tyUnk v) :=
  (decodeByte_type (by exact h)).trans (by rw [if_neg hv])

theorem decodes_bufApp (h : s.st = .buffering) (room : s.pl.len + 1 < params.payloadLen) :
    decodeByte s.selCtx v = .ok (.bufApp v) :=
  decodeByte_buffering_more (by exact h) (by exact room)

theorem decodes_bufLast (h : s.st = .buffering) (last : s.pl.len + 1 = params.payloadLen) :
    decodeByte s.selCtx v = .ok (.bufLast v) :=
  decodeByte_buffering_last (by exact h) (by exact last)

theorem decodes_caMatch (h : s.st = .checkA) : decodeByte s.selCtx s.ckA = .ok (.caMatch s.ckA) := by
  rw [decodeByte_checkA (by exact h), selCtx_ckA, if_pos rfl]

theorem decodes_caMism (h : s.st = .checkA) (hv : v ≠ s.ckA) : decodeByte s.selCtx v = .ok (.caMism v) :=
  (decodeByte_checkA (by exact h)).trans (by rw [if_neg (by exact hv)])

theorem decodes_cbMatch (h : s.st = .checkB) : decodeByte s.selCtx s.ckB = .ok (.cbMatch s.ckB) := by
  rw [decodeByte_checkB (by exact h), selCtx_ckB, if_pos rfl]

theorem decodes_cbMism (h : s.st = .checkB) (hv : v ≠ s.ckB) : decodeByte s.selCtx v = .ok (.cbMism v) :=
  (decodeByte_checkB (by exact h)).trans (by rw [if_neg (by exact hv)])

end Selects

end Sys2Proof.Machine
end

