-- ==== Sys2Proof/Laws/Run.lean ====
section
/-! SUPPORT. Runs over item lists: their recursion, their composition, and their events. -/

namespace Sys2Proof.Machine

variable {s t u : State} {n : Nat}

@[simp] theorem runFrom_nil (n : Nat) (s : State) : runFrom n s [] = some ({ s with inputs := [] }, []) := rfl

/-- A run over one more item is a step and the rest of the run. -/
theorem runFrom_cons {it : Item} {its : List Item} {out : State × List (Nat × Event)} :
    runFrom n s (it :: its) = some out ↔
      ∃ t, step (feed it s) = .next t ∧ ∃ u evs, runFrom (n + 1) t its = some (u, evs) ∧
        out = (u, t.events.map (fun e => (n, e)) ++ evs) := by
  rw [runFrom]
  constructor
  · intro h
    split at h
    · next t ht =>
      split at h
      · next u evs hr => exact ⟨t, ht, u, evs, hr, by simpa using h.symm⟩
      · cases h
    · cases h
    · cases h
  · rintro ⟨t, ht, u, evs, hr, rfl⟩
    simp [ht, hr]

/-- What is still listed at the input does not matter to a run. -/
theorem runFrom_inputs (n : Nat) (s : State) (ps : List Pins) (its : List Item) :
    runFrom n { s with inputs := ps } its = runFrom n s its := by
  cases its <;> rfl

/-- A run leaves nothing at the input. -/
theorem runFrom_inputs_nil {its : List Item} {evs : List (Nat × Event)} (h : runFrom n s its = some (u, evs)) :
    u.inputs = [] := by
  induction its generalizing n s evs with
  | nil => simp only [runFrom_nil, Option.some.injEq, Prod.mk.injEq] at h; rw [← h.1]
  | cons it its ih =>
    obtain ⟨t, -, u', evs', hr, e⟩ := runFrom_cons.1 h
    cases e
    exact ih hr

/-- A run over a concatenation is one run after the other, the second numbered on from the first. -/
theorem runFrom_append {xs ys : List Item} {out : State × List (Nat × Event)} :
    runFrom n s (xs ++ ys) = some out ↔
      ∃ t ev₁, runFrom n s xs = some (t, ev₁) ∧ ∃ u ev₂, runFrom (n + xs.length) t ys = some (u, ev₂) ∧
        out = (u, ev₁ ++ ev₂) := by
  induction xs generalizing n s out with
  | nil =>
    simp only [List.nil_append, runFrom_nil, Option.some.injEq, Prod.mk.injEq, List.length_nil, Nat.add_zero]
    constructor
    · intro h
      exact ⟨_, _, ⟨rfl, rfl⟩, out.1, out.2, by rw [runFrom_inputs]; exact h, rfl⟩
    · rintro ⟨t, ev, ⟨rfl, rfl⟩, u, ev₂, h, rfl⟩
      rwa [runFrom_inputs] at h
  | cons x xs ih =>
    simp only [List.cons_append, runFrom_cons, List.length_cons]
    constructor
    · rintro ⟨t, ht, u, evs, hr, rfl⟩
      obtain ⟨t₁, ev₁, h₁, u₂, ev₂, h₂, e⟩ := ih.1 hr
      cases e
      exact ⟨t₁, _, ⟨t, ht, t₁, ev₁, h₁, rfl⟩, u, ev₂, by rwa [Nat.add_right_comm] at h₂, by simp⟩
    · rintro ⟨t₁, ev, ⟨t, ht, t₁', ev₁, h₁, e⟩, u, ev₂, h₂, rfl⟩
      cases e
      exact ⟨t, ht, u, ev₁ ++ ev₂, ih.2 ⟨t₁, ev₁, h₁, u, ev₂, by rwa [Nat.add_right_comm], rfl⟩, by simp⟩

/-- Numbering a run from elsewhere shifts its indices and changes nothing else. -/
theorem runFrom_shift (k : Nat) {its : List Item} {evs : List (Nat × Event)} (h : runFrom n s its = some (u, evs)) :
    runFrom (n + k) s its = some (u, evs.map fun e => (e.1 + k, e.2)) := by
  induction its generalizing n s evs with
  | nil => simp only [runFrom_nil, Option.some.injEq, Prod.mk.injEq] at h ⊢; simp [← h.1, ← h.2]
  | cons it its ih =>
    obtain ⟨t, ht, u', evs', hr, e⟩ := runFrom_cons.1 h
    cases e
    refine runFrom_cons.2 ⟨t, ht, u, _, by simpa [Nat.add_right_comm] using ih hr, ?_⟩
    simp

@[simp] theorem length_byteItems (bs : List Byte) : (byteItems bs).length = bs.length := by simp [byteItems]

@[simp] theorem byteItems_append (xs ys : List Byte) : byteItems (xs ++ ys) = byteItems xs ++ byteItems ys := by
  simp [byteItems]

@[simp] theorem samplesOf_append (xs ys : List (Nat × Event)) : samplesOf (xs ++ ys) = samplesOf xs ++ samplesOf ys := by
  simp [samplesOf]

@[simp] theorem reportsOf_append (xs ys : List (Nat × Event)) : reportsOf (xs ++ ys) = reportsOf xs ++ reportsOf ys := by
  simp [reportsOf]

@[simp] theorem frameEventsOf_append (xs ys : List (Nat × Event)) :
    frameEventsOf (xs ++ ys) = frameEventsOf xs ++ frameEventsOf ys := by
  simp [frameEventsOf]

/-- The Samples of a run do not depend on how its items are numbered. -/
theorem samplesOf_shift (k : Nat) (evs : List (Nat × Event)) :
    samplesOf (evs.map fun e => (e.1 + k, e.2)) = samplesOf evs := by
  simp [samplesOf, List.filterMap_map]

end Sys2Proof.Machine
end

