-- ==== Sys2Proof/Laws/Inversion.lean ====
section
/-! SUPPORT. Said once: all that the step of one presented byte can do, and what a claim over runs needs beside it. -/

namespace Sys2Proof.Machine

/-- What a step leaves behind of the state before it, before its operation: nothing presented, nothing given out. -/
abbrev State.quiet (s : State) : State := { s with inputs := [], events := [], result := none }

variable {s t : State} {n : Nat}

theorem step_feed_byte {v : Byte} {i : Instr} (h : decodeByte s.selCtx v = .ok i) :
    step (feed (.byte v) s) = exec i s.quiet := step_feed (it := .byte v) h

theorem step_feed_reset : step (feed .reset s) = .next (resetBlock s.quiet) := by
  rw [step_feed (decodeItem_reset _)]; exact exec_reset_next.2 rfl

theorem step_feed_idle : step (feed .idle s) = .next s.quiet := by
  rw [step_feed (decodeItem_idle _)]; exact exec_idle_next.2 rfl

/-- The step of one presented byte: one of twelve. -/
inductive ByteStep (s : State) (v : Byte) : State → Prop where
  | s1Hit : s.st = .seek1 → v = params.sync1 → ByteStep s v (goto .seek2 s.quiet)
  | s1Miss : s.st = .seek1 → v ≠ params.sync1 → ByteStep s v s.quiet
  | s2Hit : s.st = .seek2 → v = params.sync2 → ByteStep s v (goto .type s.quiet)
  | s2Miss : s.st = .seek2 → v ≠ params.sync2 → ByteStep s v (goto .seek1 s.quiet)
  | tySample : s.st = .type → v = params.typeSample → ByteStep s v { s.quiet with
      st := .buffering, pl := [(0, params.typeSample)], ckA := params.typeSample, ckB := params.typeSample,
      totalCnt := incCounter s.totalCnt s.draws, draws := drawsAfterInc s.totalCnt s.draws }
  | tyUnk : s.st = .type → v ≠ params.typeSample → ByteStep s v (goto .seek1 (emit (.unknownType v) s.quiet))
  | bufApp : s.st = .buffering → s.pl.len + 1 < params.payloadLen → ByteStep s v { s.quiet with
      pl := s.pl.append v, ckA := s.ckA + v, ckB := s.ckB + (s.ckA + v) }
  | bufLast : s.st = .buffering → s.pl.len + 1 = params.payloadLen → ByteStep s v { s.quiet with
      st := .checkA, pl := s.pl.append v, ckA := s.ckA + v, ckB := s.ckB + (s.ckA + v) }
  | caMatch : s.st = .checkA → v = s.ckA → ByteStep s v (goto .checkB s.quiet)
  | caMism : s.st = .checkA → v ≠ s.ckA → ByteStep s v (statCheckOp s.goodCnt (goto .seek1 s.quiet))
  | cbMatch (p : Payload) : s.st = .checkB → v = s.ckB → s.pl.bytes = payloadBytes p →
      ByteStep s v (statCheckOp (incCounter s.goodCnt s.draws)
        (goto .seek1 (emit (.sample (decodePayload p)) (bumpGood s.quiet))))
  | cbMism : s.st = .checkB → v ≠ s.ckB → ByteStep s v (statCheckOp s.goodCnt (goto .seek1 s.quiet))

/-- If the step of a presented byte answers a next state, it is one of the twelve. -/
theorem byteStep_of_step {v : Byte} (h : step (feed (.byte v) s) = .next t) : ByteStep s v t := by
  cases hs : s.st with
  | seek1 =>
    by_cases hv : v = params.sync1
    · subst hv
      rw [step_feed_byte (decodes_s1Hit hs)] at h
      obtain ⟨-, rfl⟩ := exec_s1Hit_next.1 h
      exact .s1Hit hs rfl
    · rw [step_feed_byte (decodes_s1Miss hs hv)] at h
      obtain ⟨-, rfl⟩ := exec_s1Miss_next.1 h
      exact .s1Miss hs hv
  | seek2 =>
    by_cases hv : v = params.sync2
    · subst hv
      rw [step_feed_byte (decodes_s2Hit hs)] at h
      obtain ⟨-, rfl⟩ := exec_s2Hit_next.1 h
      exact .s2Hit hs rfl
    · rw [step_feed_byte (decodes_s2Miss hs hv)] at h
      obtain ⟨-, rfl⟩ := exec_s2Miss_next.1 h
      exact .s2Miss hs hv
  | type =>
    by_cases hv : v = params.typeSample
    · subst hv
      rw [step_feed_byte (decodes_tySample hs)] at h
      obtain ⟨-, rfl⟩ := exec_tySample_next.1 h
      exact .tySample hs rfl
    · rw [step_feed_byte (decodes_tyUnk hs hv)] at h
      obtain ⟨-, rfl⟩ := exec_tyUnk_next.1 h
      exact .tyUnk hs hv
  | buffering =>
    rcases Nat.lt_trichotomy (s.pl.len + 1) params.payloadLen with room | last | full
    · rw [step_feed_byte (decodes_bufApp hs room)] at h
      obtain ⟨-, rfl⟩ := exec_bufApp_next.1 h
      exact .bufApp hs room
    · rw [step_feed_byte (decodes_bufLast hs last)] at h
      obtain ⟨-, rfl⟩ := exec_bufLast_next.1 h
      exact .bufLast hs last
    · rw [step_of_reject (e := .noTransition)] at h
      · cases h
      · rw [nextItem_feed]
        exact decodeByte_buffering_full (by exact hs) (Nat.lt_succ_iff.1 full)
  | checkA =>
    by_cases hv : v = s.ckA
    · subst hv
      rw [step_feed_byte (decodes_caMatch hs)] at h
      obtain ⟨-, rfl⟩ := exec_caMatch_next.1 h
      exact .caMatch hs rfl
    · rw [step_feed_byte (decodes_caMism hs hv)] at h
      obtain ⟨-, rfl⟩ := exec_caMism_next.1 h
      exact .caMism hs hv
  | checkB =>
    by_cases hv : v = s.ckB
    · subst hv
      rw [step_feed_byte (decodes_cbMatch hs)] at h
      obtain ⟨-, p, hp, rfl⟩ := exec_cbMatch_next.1 h
      exact .cbMatch p hs rfl hp
    · rw [step_feed_byte (decodes_cbMism hs hv)] at h
      obtain ⟨-, rfl⟩ := exec_cbMism_next.1 h
      exact .cbMism hs hv

/-- The invariant speaks of the block alone. -/
theorem Inv.congr {c : Config} (h : Inv s c) (hb : t.block = s.block) : Inv t c := by
  have e1 : t.st = s.st := congrArg Block.st hb
  have e2 : t.pl = s.pl := congrArg Block.pl hb
  have e3 : t.ckA = s.ckA := congrArg Block.ckA hb
  have e4 : t.ckB = s.ckB := congrArg Block.ckB hb
  have e5 : t.totalCnt = s.totalCnt := congrArg Block.totalCnt hb
  have e6 : t.goodCnt = s.goodCnt := congrArg Block.goodCnt hb
  obtain ⟨h1, h2, h3, h4, h5, h6, h7, h8, h9, h10⟩ := h
  constructor <;> simp only [e1, e2, e3, e4, e5, e6] <;> assumption

/-- A run over one byte is its step. -/
theorem runFrom_byte {v : Byte} (h : step (feed (.byte v) s) = .next t) :
    runFrom n s (byteItems [v]) = some ({ t with inputs := [] }, t.events.map fun e => (n, e)) :=
  runFrom_cons.2 ⟨t, h, _, _, rfl, by simp⟩

end Sys2Proof.Machine
end

