-- ==== Sys2Proof/Laws/Payload.lean ====
section
/-! SUPPORT. A payload as its eleven bytes, at the document's values. -/

namespace Sys2Proof.Machine

/-- A payload is eleven bytes. -/
theorem payloadBytes_cases (p : Payload) : ∃ b0 b1 b2 b3 b4 b5 b6 b7 b8 b9 b10 : Byte,
    payloadBytes p = [b0, b1, b2, b3, b4, b5, b6, b7, b8, b9, b10] := by
  have len := length_payloadBytes p
  generalize payloadBytes p = bs at len
  match bs, len with
  | [b0, b1, b2, b3, b4, b5, b6, b7, b8, b9, b10], _ => exact ⟨b0, b1, b2, b3, b4, b5, b6, b7, b8, b9, b10, rfl⟩

/-- The eleven bytes of a frame builder's payload (spec R82). -/
theorem payloadBytes_payloadFor (x : Sample) : payloadBytes (payloadFor x) =
    [params.typeSample,
      byteAt x.load.toNat 0, byteAt x.load.toNat 1, byteAt x.load.toNat 2, byteAt x.load.toNat 3,
      byteAt x.steps.toNat 0, byteAt x.steps.toNat 1, byteAt x.steps.toNat 2, byteAt x.steps.toNat 3,
      byteAt x.displacement.toNat 0, byteAt x.displacement.toNat 1] := rfl

/-- The frame builder's bytes are its payload's, at the document's values. -/
theorem samplePayload_eq (x : Sample) : samplePayload x = payloadBytes (payloadFor x) := rfl

theorem encodeSample_eq (x : Sample) : encodeSample x = frameOf (payloadBytes (payloadFor x)) := rfl

/-- A frame has four bytes beside its payload (spec R70). -/
@[simp] theorem length_frameOf (bs : List Byte) (c : Config) : (frameOf bs c).length = bs.length + 4 := by simp [frameOf]

@[simp] theorem length_samplePayload (x : Sample) (c : Config) : (samplePayload x c).length = c.payloadLen := by
  simp [samplePayload]

/-- `Encode` gives `FRAME_LEN` bytes, at every valid configuration. -/
theorem length_encodeSample_of_valid {c : Config} (h : c.Valid) (x : Sample) : (encodeSample x c).length = c.frameLen := by
  obtain ⟨-, -, -, frame, -⟩ := h
  simp only [encodeSample, length_frameOf, length_samplePayload]; omega

@[simp] theorem length_encodeSample (x : Sample) : (encodeSample x).length = 15 := length_frameOf _ _

/-- The three fields of a payload, by its bytes (spec R120, R51). -/
theorem sampleFields_eq (b0 b1 b2 b3 b4 b5 b6 b7 b8 b9 b10 : Byte) :
    sampleFields [b0, b1, b2, b3, b4, b5, b6, b7, b8, b9, b10] =
      ⟨signedField 32 [b1, b2, b3, b4], signedField 32 [b5, b6, b7, b8], signedField 16 [b9, b10]⟩ := rfl

end Sys2Proof.Machine
end

