-- ==== Sys2Proof/Laws/Sums.lean ====
section
/-! SUPPORT. The two sums of the checksum engine as sums of bytes. -/

namespace Sys2Proof.Machine

theorem ofNat8_succ (n : Nat) : BitVec.ofNat 8 (n + 1) = BitVec.ofNat 8 n + 1 := by
  apply BitVec.eq_of_toNat_eq; simp

/-- The engine started from any pair. -/
theorem foldl_absorb (xs : List Byte) (a b : Byte) :
    xs.foldl absorb (a, b) = (a + (checksum xs).1, b + BitVec.ofNat 8 xs.length * a + (checksum xs).2) := by
  induction xs generalizing a b with
  | nil => simp
  | cons x xs ih =>
    simp only [List.foldl_cons, absorb_eq, checksum]
    rw [ih, ih (0#8 + x)]
    simp only [List.length_cons, Prod.mk.injEq, ofNat8_succ]
    constructor
    · simp; ring
    · simp; rw [show (1#8 : Byte) = 1 from rfl]; ring

/-- The first byte of a sequence has the largest weight in the second sum (spec R106). -/
theorem checksum_cons (x : Byte) (xs : List Byte) :
    checksum (x :: xs) = (x + (checksum xs).1, BitVec.ofNat 8 (xs.length + 1) * x + (checksum xs).2) := by
  rw [checksum, List.foldl_cons, absorb_eq, foldl_absorb, ofNat8_succ]
  simp; rw [show (1#8 : Byte) = 1 from rfl]; ring

/-- The engine over a concatenation. -/
theorem checksum_concat (xs ys : List Byte) :
    checksum (xs ++ ys) = ((checksum xs).1 + (checksum ys).1,
      (checksum xs).2 + BitVec.ofNat 8 ys.length * (checksum xs).1 + (checksum ys).2) := by
  rw [checksum, List.foldl_append, ← checksum, show checksum xs = ((checksum xs).1, (checksum xs).2) from rfl,
    foldl_absorb]

end Sys2Proof.Machine
end

