-- ==== Sys2Proof/Tests/Slice0.lean ====
section
/-! SUPPORT. Small tests, each with its expected value from the spec (the vector or rule is named), and for every statement
with hypotheses a witness that meets them. -/

namespace Sys2Proof.Tests

open Sys2Proof Sys2Proof.Machine

/-! ## Helpers -/

/-- A buffer that holds these bytes. -/
def bufferOf (bs : List Byte) : Memory := bs.zipIdx.map fun e => (e.2, e.1)

/-- The spec's way of writing a state: `(st, pl, ck_a ck_b, total_cnt, good_cnt)`. -/
def stateOf (st : St) (pl : List Byte) (a b : Byte) (total good : Counter) : State :=
  { State.reset with st := st, pl := bufferOf pl, ckA := a, ckB := b, totalCnt := total, goodCnt := good }

/-- The block and the events after one item. -/
def after (it : Item) (s : State) : Option (Block × List Event) :=
  match step (present it.pins s) with
  | .next t => some (t.block, t.events)
  | .fault _ => none
  | .refused _ => none

/-- The result of an operation performed by itself. -/
def resultOf (i : Instr) : Option OpResult :=
  match exec i State.reset with
  | .next t => t.result
  | .fault _ => none
  | .refused _ => none

/-- The accumulators after an operation performed by itself. -/
def sumsAfter (i : Instr) (s : State) : Option (Byte × Byte) :=
  match exec i s with
  | .next t => some (t.ckA, t.ckB)
  | .fault _ => none
  | .refused _ => none

/-- Does an operation stop in a state with this refusal? -/
def refuses (i : Instr) (s : State) (r : Refusal) : Bool :=
  match exec i s with
  | .next _ => false
  | .fault _ => false
  | .refused q => q == r

/-- Does an operation answer a next state of which this holds? -/
def gives (i : Instr) (s : State) (holds : State → Bool) : Bool :=
  match exec i s with
  | .next t => holds t
  | .fault _ => false
  | .refused _ => false

theorem exists_of_gives {i : Instr} {s : State} {holds : State → Bool} (h : gives i s holds = true) :
    ∃ t, exec i s = .next t ∧ holds t = true := by
  unfold gives at h
  split at h
  · exact ⟨_, by assumption, h⟩
  · cases h
  · cases h

/-- The payload of vector F1, which is also V14. -/
def f1 : List Byte := [0x06#8, 0xE8#8, 0x03#8, 0x00#8, 0x00#8, 0xF4#8, 0x01#8, 0x00#8, 0x00#8, 0xEC#8, 0xFF#8]

/-- The Sample of vector F1. -/
def sampleF1 : Sample := ⟨1000#32, 500#32, 0xFFEC#16⟩

/-! ## Constants and layout (spec R5, R21, R36) -/

theorem test_params_valid : params.Valid := by decide

theorem test_constants_differ : params.sync1 = 0x74#8 ∧ params.sync2 = 0x74#8 ∧ params.typeSample ≠ params.sync1 := by
  decide

/-- The six codes of spec R21, and the two codes that stand for no state. -/
theorem test_state_codes :
    [St.seek1, .seek2, .type, .buffering, .checkA, .checkB].map stCode = [0, 1, 2, 3, 4, 5] ∧
    stOfCode 5 = some .checkB ∧ stOfCode 6 = none ∧ stOfCode 7 = none := by decide

/-- The numbers of the `cond` column of spec/opcode_table.json. -/
theorem test_rows_at_the_documents_values : byteRows.map (·.cond) =
    [.const 0x74#8 0xFF#8 false, .const 0x74#8 0xFF#8 true, .const 0x74#8 0xFF#8 false, .const 0x74#8 0xFF#8 true,
      .const 0x06#8 0xFF#8 false, .const 0x06#8 0xFF#8 true, .lenAtMost 9, .lenIs 10, .accA false, .accA true,
      .accB false, .accB true] := by decide

theorem test_reset_state : State.reset.block = ⟨.seek1, [], 0#8, 0#8, 0#8, 0#8⟩ := by decide

/-! ## WellFormed: an ill-formed term for each check -/

theorem test_wf_s1Miss_refuses_sync1 : Instr.wf (.s1Miss 0x74#8) = false ∧ Instr.wf (.s1Miss 0x75#8) = true := by decide
theorem test_wf_s2Miss_refuses_sync2 : Instr.wf (.s2Miss 0x74#8) = false ∧ Instr.wf (.s2Miss 0x73#8) = true := by decide
theorem test_wf_tyUnk_refuses_sample : Instr.wf (.tyUnk 0x06#8) = false ∧ Instr.wf (.tyUnk 0x07#8) = true := by decide
theorem test_wf_le32s_refuses_short :
    Instr.wf (.le32s [1#8, 2#8, 3#8, 4#8] 1) = false ∧ Instr.wf (.le32s [1#8, 2#8, 3#8, 4#8] 0) = true := by decide
theorem test_wf_le16s_refuses_short :
    Instr.wf (.le16s [1#8, 2#8] 1) = false ∧ Instr.wf (.le16s [1#8, 2#8] 0) = true := by decide

/-! ## Decoding: words written out from the encodings of spec/opcode_table.json -/

theorem test_decode_s1Hit : decodeWords ⟨.seek1, 0, 0#8, 0#8⟩ [0b01110100#8] = .ok .s1Hit := by decide
theorem test_decode_s1Miss : decodeWords ⟨.seek1, 11, 0xD1#8, 1#8⟩ [0b01110101#8] = .ok (.s1Miss 0x75#8) := by decide
theorem test_decode_s2Hit : decodeWords ⟨.seek2, 0, 0#8, 0#8⟩ [0b01110100#8] = .ok .s2Hit := by decide
theorem test_decode_s2Miss : decodeWords ⟨.seek2, 0, 0#8, 0#8⟩ [0b00010010#8] = .ok (.s2Miss 0x12#8) := by decide
theorem test_decode_tySample : decodeWords ⟨.type, 0, 0#8, 0#8⟩ [0b00000110#8] = .ok .tySample := by decide
theorem test_decode_tyUnk : decodeWords ⟨.type, 0, 0#8, 0#8⟩ [0b00000011#8] = .ok (.tyUnk 0x03#8) := by decide
theorem test_decode_bufApp : decodeWords ⟨.buffering, 9, 0#8, 0#8⟩ [0b01110100#8] = .ok (.bufApp 0x74#8) := by decide
theorem test_decode_bufLast : decodeWords ⟨.buffering, 10, 0#8, 0#8⟩ [0b01110100#8] = .ok (.bufLast 0x74#8) := by decide
theorem test_decode_full_buffer : decodeWords ⟨.buffering, 11, 0#8, 0#8⟩ [0x74#8] = .error .noTransition := by decide
theorem test_decode_caMatch : decodeWords ⟨.checkA, 11, 0xD1#8, 1#8⟩ [0b11010001#8] = .ok (.caMatch 0xD1#8) := by decide
theorem test_decode_caMism : decodeWords ⟨.checkA, 11, 0xD1#8, 1#8⟩ [0b00000001#8] = .ok (.caMism 0x01#8) := by decide
theorem test_decode_cbMatch : decodeWords ⟨.checkB, 11, 0xD1#8, 1#8⟩ [0b00000001#8] = .ok (.cbMatch 0x01#8) := by decide
theorem test_decode_cbMism : decodeWords ⟨.checkB, 11, 0xD1#8, 1#8⟩ [0b11010001#8] = .ok (.cbMism 0xD1#8) := by decide
theorem test_decode_items : decodeItem resetCtx .reset = .ok .reset ∧ decodeItem resetCtx .idle = .ok .idle := by decide
theorem test_decode_not_one_byte :
    decodeWords resetCtx [] = .error .notOneByte ∧ decodeWords resetCtx [0x74#8, 0x74#8] = .error .notOneByte := by decide

/-- A table word is read in the reset state, where `0x74` is S1.HIT and `0x06` is S1.MISS. -/
theorem test_table_word :
    decodeTableWord 8 0x74 = some .s1Hit ∧ decodeTableWord 8 0x06 = some (.s1Miss 0x06#8) ∧
    decodeTableWord 8 0x100 = none ∧ decodeTableWord 16 0x74 = none := by decide

/-- The next step after a table word is placed runs its operation. -/
theorem test_fetch_word :
    step (State.reset.withFetchWord 8 0x74) = exec .s1Hit State.reset := by rfl

/-- `rst` wins over a byte presented with it, and `in_byte` is ignored unless it is valid (spec R231, U9). -/
theorem test_pins :
    (Pins.mk true true 0x74#8).item = .reset ∧ (Pins.mk false true 0x74#8).item = .byte 0x74#8 ∧
    (Pins.mk false false 0x74#8).item = .idle := by decide

/-! ## One step: the vectors of section 4 of 95_test_vectors.md -/

theorem test_T1 : after (.byte 0x74#8) (stateOf .seek1 [] 0#8 0#8 0#8 0#8) =
    some ((stateOf .seek2 [] 0#8 0#8 0#8 0#8).block, []) := by decide
theorem test_T4 : after (.byte 0x75#8) (stateOf .seek1 f1 0xD1#8 0x01#8 5#8 4#8) =
    some ((stateOf .seek1 f1 0xD1#8 0x01#8 5#8 4#8).block, []) := by decide
theorem test_T5 : after (.byte 0x74#8) (stateOf .seek2 [] 0#8 0#8 0#8 0#8) =
    some ((stateOf .type [] 0#8 0#8 0#8 0#8).block, []) := by decide
theorem test_T7 : after (.byte 0x06#8) (stateOf .seek2 [] 0#8 0#8 0#8 0#8) =
    some ((stateOf .seek1 [] 0#8 0#8 0#8 0#8).block, []) := by decide
theorem test_T9 : after (.byte 0x06#8) (stateOf .type f1 0xD1#8 0x01#8 5#8 4#8) =
    some ((stateOf .buffering [0x06#8] 0x06#8 0x06#8 6#8 4#8).block, []) := by decide
theorem test_T11 : after (.byte 0x74#8) (stateOf .type [] 0#8 0#8 0#8 0#8) =
    some ((stateOf .seek1 [] 0#8 0#8 0#8 0#8).block, [.unknownType 0x74#8]) := by decide
theorem test_T13 : after (.byte 0x07#8) (stateOf .type f1 0xD1#8 0x01#8 149#8 149#8) =
    some ((stateOf .seek1 f1 0xD1#8 0x01#8 149#8 149#8).block, [.unknownType 0x07#8]) := by decide
theorem test_T14 : after (.byte 0xE8#8) (stateOf .buffering [0x06#8] 0x06#8 0x06#8 1#8 0#8) =
    some ((stateOf .buffering [0x06#8, 0xE8#8] 0xEE#8 0xF4#8 1#8 0#8).block, []) := by decide
theorem test_T15 : after (.byte 0x74#8) (stateOf .buffering [0x06#8] 0x06#8 0x06#8 1#8 0#8) =
    some ((stateOf .buffering [0x06#8, 0x74#8] 0x7A#8 0x80#8 1#8 0#8).block, []) := by decide
theorem test_T17 : after (.byte 0xFF#8) (stateOf .buffering (f1.take 10) 0xD2#8 0x30#8 1#8 0#8) =
    some ((stateOf .checkA f1 0xD1#8 0x01#8 1#8 0#8).block, []) := by decide
theorem test_T20 : after (.byte 0x74#8) (stateOf .checkA f1 0xD1#8 0x01#8 1#8 0#8) =
    some ((stateOf .seek1 f1 0xD1#8 0x01#8 1#8 0#8).block, []) := by decide
theorem test_T21 : after (.byte 0x01#8) (stateOf .checkB f1 0xD1#8 0x01#8 1#8 0#8) =
    some ((stateOf .seek1 f1 0xD1#8 0x01#8 1#8 1#8).block, [.sample sampleF1]) := by decide
theorem test_T23 : after (.byte 0xD1#8) (stateOf .checkB f1 0xD1#8 0x01#8 1#8 0#8) =
    some ((stateOf .seek1 f1 0xD1#8 0x01#8 1#8 0#8).block, []) := by decide
theorem test_T24 : after .idle (stateOf .checkB f1 0xD1#8 0x01#8 150#8 149#8) =
    some ((stateOf .checkB f1 0xD1#8 0x01#8 150#8 149#8).block, []) := by decide
theorem test_T26 : after (.byte 0x01#8) (stateOf .checkB f1 0xD1#8 0x01#8 150#8 149#8) =
    some ((stateOf .seek1 f1 0xD1#8 0x01#8 0#8 0#8).block, [.sample sampleF1, .statsReport 150#8 150#8]) := by decide
theorem test_T28 : after (.byte 0x00#8) (stateOf .checkA f1 0xD1#8 0x01#8 150#8 100#8) =
    some ((stateOf .seek1 f1 0xD1#8 0x01#8 0#8 0#8).block, [.statsReport 100#8 150#8]) := by decide
theorem test_T29 : after (.byte 0xD1#8) (stateOf .checkA f1 0xD1#8 0x01#8 150#8 149#8) =
    some ((stateOf .checkB f1 0xD1#8 0x01#8 150#8 149#8).block, []) := by decide
theorem test_T30 : after (.byte 0x06#8) (stateOf .type f1 0xD1#8 0x01#8 149#8 149#8) =
    some ((stateOf .buffering [0x06#8] 0x06#8 0x06#8 150#8 149#8).block, []) := by decide
theorem test_T32 : after (.byte 0xFF#8) (stateOf .checkB f1 0xD1#8 0x01#8 150#8 0#8) =
    some ((stateOf .seek1 f1 0xD1#8 0x01#8 0#8 0#8).block, [.statsReport 0#8 150#8]) := by decide
theorem test_T33 : after .reset (stateOf .buffering (f1.take 5) 0xF1#8 0xC7#8 150#8 149#8) =
    some ((stateOf .seek1 [] 0#8 0#8 0#8 0#8).block, []) := by decide

/-- The output pins of T26: the report and the Sample share the step (spec R35, R184). -/
theorem test_ports : ((step (present (Item.byte 0x01#8).pins (stateOf .checkB f1 0xD1#8 0x01#8 150#8 149#8))) |> fun
    | .next t => (t.smpPort, t.unkPort, t.statPort)
    | _ => (none, none, none)) = (some sampleF1, none, some (150#8, 150#8)) := by decide

/-! ## The internal operations: sections 2 and 3 of 95_test_vectors.md -/

theorem test_ck_clear : sumsAfter .ckClear (stateOf .checkA f1 0xD1#8 0x01#8 1#8 0#8) = some (0#8, 0#8) := by decide
theorem test_ck_absorb_wraps :
    sumsAfter (.ckAbsorb 0x01#8) (stateOf .seek1 [] 0xFF#8 0xFF#8 0#8 0#8) = some (0x00#8, 0xFF#8) := by decide
/-- The second sum takes the new first sum. -/
theorem test_ck_absorb_order :
    sumsAfter (.ckAbsorb 0x56#8) (stateOf .seek1 [] 0x12#8 0x34#8 0#8 0#8) = some (0x68#8, 0x9C#8) := by decide
theorem test_V4_V5 : checksum [1#8, 2#8] = (3#8, 4#8) ∧ checksum [2#8, 1#8] = (3#8, 5#8) := by decide
theorem test_V6 : checksum (List.replicate 11 0xFF#8) = (0xF5#8, 0xBE#8) := by decide
theorem test_V12 : checksum [1#8, 0xFE#8, 1#8] = checksum [0#8, 0#8, 0#8] := by decide
theorem test_V14 : checksum f1 = (0xD1#8, 0x01#8) := by decide

theorem test_le32s_min :
    resultOf (.le32s [0x00#8, 0x00#8, 0x00#8, 0x80#8] 0) = some (.int32 0x80000000#32) ∧
    (0x80000000#32).toInt = -2147483648 := by decide
theorem test_le32s_order : resultOf (.le32s f1 1) = some (.int32 1000#32) := by decide
theorem test_le16s_negative :
    resultOf (.le16s [0xEC#8, 0xFF#8] 0) = some (.int16 0xFFEC#16) ∧ (0xFFEC#16).toInt = -20 := by decide
theorem test_le16s_order : resultOf (.le16s [0x00#8, 0x01#8] 0) = some (.int16 256#16) := by decide
theorem test_memRead : memRead (bufferOf f1) 1 4 = some 1000 ∧ memRead (bufferOf f1) 8 4 = none ∧
    memRead (bufferOf f1) 0 3 = none := by decide

/-- F7: byte order and sign of all three fields. -/
theorem test_F7 : resultOf (.decode #v[0x06#8, 0x78#8, 0x56#8, 0x34#8, 0x12#8, 0xEF#8, 0xCD#8, 0xAB#8, 0x89#8, 0x00#8, 0x80#8]) =
    some (.sample (sampleOfInts 305419896 (-1985229329) (-32768))) := by decide
/-- F8: byte 0 of a payload does not enter. -/
theorem test_F8 : decodeBytes (0xAA#8 :: f1.tail) = some (sampleOfInts 1000 500 (-20)) := by decide
/-- The frame of program P1. -/
theorem test_encode_P1 : encodeSample (sampleOfInts 1000 500 (-20)) = [0x74#8, 0x74#8] ++ f1 ++ [0xD1#8, 0x01#8] := by
  decide

/-- T32 and T31 as STAT.CHECK by itself: at the threshold it reports and clears, one below it does nothing. -/
theorem test_stat_check_at : gives (.statCheck 0#8) (stateOf .seek1 f1 0xD1#8 0x01#8 150#8 0#8)
    (fun t => t.totalCnt == 0#8 && t.goodCnt == 0#8 && t.events == [.statsReport 0#8 150#8]) = true := by decide
theorem test_stat_check_below : gives (.statCheck 149#8) (stateOf .seek1 f1 0xD1#8 0x01#8 149#8 149#8)
    (fun t => t.totalCnt == 149#8 && t.goodCnt == 149#8 && t.events == []) = true := by decide

/-! ## Where meanings stop -/

theorem test_refuses_outside_operand_line : refuses .s2Hit State.reset .notSelected = true := by decide
theorem test_refuses_short_payload :
    refuses (.cbMatch 0x01#8) (stateOf .checkB (f1.take 10) 0xD1#8 0x01#8 1#8 0#8) .payloadLength = true := by decide
theorem test_refuses_field_outside :
    refuses (.le32s [1#8, 2#8, 3#8] 0) State.reset .fieldOutOfRange = true ∧
    refuses (.le16s f1 10) State.reset .fieldOutOfRange = true := by decide
theorem test_full_buffer_stops : after (.byte 0x00#8) (stateOf .buffering f1 0xD1#8 0x01#8 1#8 0#8) = none := by decide

/-! ## Another configuration (decision D13): every constant differs, and each is read -/

/-- Each field moved by hand; the constraints of spec R5 still hold. -/
def otherConfig : Config where
  sync1          := 0xAA#8
  sync2          := 0x55#8
  typeSample     := 0x07#8
  payloadLen     := 12
  frameLen       := 16
  offLoad        := 2
  offSteps       := 6
  offDisp        := 10
  ckMod          := 255
  statsThreshold := 2
  cntW           := 8
  stW            := 3

theorem test_other_valid : otherConfig.Valid := by decide

/-- The block and the events after one item, at another configuration. -/
def afterWith (it : Item) (s : State) : Option (Block × List Event) :=
  match stepWith otherConfig (present it.pins s) with
  | .next t => some (t.block, t.events)
  | .fault _ => none
  | .refused _ => none

/-- The three constants that name a byte. -/
theorem test_other_bytes :
    afterWith (.byte 0x74#8) State.reset = some (State.reset.block, []) ∧
    afterWith (.byte 0xAA#8) State.reset = some ((stateOf .seek2 [] 0#8 0#8 0#8 0#8).block, []) ∧
    afterWith (.byte 0x55#8) (stateOf .seek2 [] 0#8 0#8 0#8 0#8) = 
      some ((stateOf .type [] 0#8 0#8 0#8 0#8).block, []) ∧
    afterWith (.byte 0x07#8) (stateOf .type [] 0#8 0#8 0#8 0#8) =
      some ((stateOf .buffering [0x07#8] 0x07#8 0x07#8 1#8 0#8).block, []) := by decide

/-- Eleven bytes are not yet a payload, and the sums are taken modulo 255. -/
theorem test_other_length_and_modulus :
    afterWith (.byte 0xFE#8) (stateOf .buffering (f1.take 10) 0x01#8 0x02#8 1#8 0#8) =
      some ((stateOf .buffering (f1.take 10 ++ [0xFE#8]) 0x00#8 0x02#8 1#8 0#8).block, []) ∧
    afterWith (.byte 0xFE#8) (stateOf .buffering f1 0x01#8 0x02#8 1#8 0#8) =
      some ((stateOf .checkA (f1 ++ [0xFE#8]) 0x00#8 0x02#8 1#8 0#8).block, []) := by decide

/-- The fields stand one byte later, and a second attempt is reported. -/
theorem test_other_offsets_and_threshold :
    afterWith (.byte 0x02#8) (stateOf .checkB (0x07#8 :: f1) 0x01#8 0x02#8 2#8 1#8) =
      some ((stateOf .seek1 (0x07#8 :: f1) 0x01#8 0x02#8 0#8 0#8).block, [.sample sampleF1, .statsReport 2#8 2#8]) := by
  decide

/-- The frame builder at that configuration: the pad byte at offset 1 is the type's, the fields follow. -/
theorem test_other_frame : encodeSample sampleF1 otherConfig = [0xAA#8, 0x55#8, 0x07#8, 0x07#8] ++ f1.tail ++ [0xDC#8, 0x72#8] := by
  decide

/-! ## Witnesses: states and operands that meet the hypotheses of the statements -/

/-- In TYPE, CHECK_A, CHECK_B and SEEK1, with a frame behind it or in flight, at both sides of the threshold. -/
def typeState : State := stateOf .type [] 0#8 0#8 0#8 0#8
def bufState : State := stateOf .buffering (f1.take 10) 0xD2#8 0x30#8 1#8 0#8
def checkAState (total good : Counter) : State := stateOf .checkA f1 0xD1#8 0x01#8 total good
def checkBState (total good : Counter) : State := stateOf .checkB f1 0xD1#8 0x01#8 total good
def seekState (total good : Counter) : State := stateOf .seek1 f1 0xD1#8 0x01#8 total good

theorem inv_seek1_reset : Inv State.reset := by constructor <;> decide
theorem inv_seek1_149 : Inv (seekState 149#8 149#8) := by constructor <;> decide
theorem inv_seek1_148 : Inv (seekState 148#8 0#8) := by constructor <;> decide
theorem inv_seek2 : Inv (stateOf .seek2 [] 0#8 0#8 0#8 0#8) := by constructor <;> decide
theorem inv_buffering : Inv bufState := by constructor <;> decide
theorem inv_checkA_1 : Inv (checkAState 1#8 0#8) := by constructor <;> decide
theorem inv_checkA_150 : Inv (checkAState 150#8 149#8) := by constructor <;> decide
theorem inv_checkB_150 : Inv (checkBState 150#8 149#8) := by constructor <;> decide

/-- DecodeInvertsEncode, second and third clause. -/
theorem witness_DecodeInvertsEncode :
    Instr.wf (.caMism 0#8) = true ∧ encode (.caMism 0#8) = some (.byte 0#8) ∧
    decodeItem ⟨.checkA, 11, 0xD1#8, 1#8⟩ (.byte 0#8) = .ok (.caMism 0#8) := by decide

/-- TableRowsAgreeWithTheMachine, second clause. -/
theorem witness_TableRowsAgree : ∃ t, exec (.bufLast 0xFF#8) bufState = .next t ∧
    (⟨"BUF.LAST", .buffering, .lenIs 10, .checkA⟩ : Row) ∈ byteRows ∧
    Row.takes bufState.selCtx 0xFF#8 ⟨"BUF.LAST", .buffering, .lenIs 10, .checkA⟩ = true ∧
    decodeByte bufState.selCtx 0xFF#8 = .ok (.bufLast 0xFF#8) := by
  obtain ⟨t, h, -⟩ := exists_of_gives (show gives (.bufLast 0xFF#8) bufState (fun _ => true) = true by decide)
  exact ⟨t, h, by decide, by decide, by decide⟩

/-- DecoderRefusesOnlyAFullBuffer: a full buffer, the shortest one that is full. -/
theorem witness_DecoderRefuses : decodeItem ⟨.buffering, 11, 0#8, 0#8⟩ (.byte 0#8) = .error .noTransition ∧
    ([] : List Byte).length ≠ 1 := by decide

/-- StepRunsTheSelectedOperation, its four clauses. -/
theorem witness_StepRuns :
    (present ⟨false, true, 0x74#8⟩ State.reset).inputs = ⟨false, true, 0x74#8⟩ :: [] ∧
    decodeItem (present ⟨false, true, 0x74#8⟩ State.reset).selCtx (Pins.item ⟨false, true, 0x74#8⟩) = .ok .s1Hit ∧
    State.reset.inputs = [] ∧
    decodeItem (stateOf .buffering f1 0#8 0#8 0#8 0#8).selCtx (Pins.item ⟨false, true, 0x74#8⟩) = .error .noTransition ∧
    255 < 256 ∧ decodeWords State.reset.selCtx [BitVec.ofNat 8 255] = .ok (.s1Miss 0xFF#8) := by decide

/-- FirstSyncByteGoesToSeek2 and OtherByteStaysInSeek1, next to the sync byte on both sides. -/
theorem witness_seek1 : State.reset.st = .seek1 ∧ 0x73#8 ≠ params.sync1 ∧ 0x75#8 ≠ params.sync1 := by decide
/-- SecondSyncByteGoesToType and MissedSecondSyncByteGoesToSeek1. -/
theorem witness_seek2 : (stateOf .seek2 [] 0#8 0#8 0#8 0#8).st = .seek2 ∧ 0x73#8 ≠ params.sync2 := by decide
/-- SampleTypeStartsAnAttempt at the largest count that still fits, and OtherTypeIsReportedAndDropped. -/
theorem witness_type : (stateOf .type [] 0#8 0#8 254#8 0#8).st = .type ∧
    (stateOf .type [] 0#8 0#8 254#8 0#8).totalCnt.toNat < 255 ∧ 0x07#8 ≠ params.typeSample := by decide
/-- SampleTypeRunsAtAFullCount. -/
theorem witness_full_count : (stateOf .type [] 0#8 0#8 255#8 0#8).st = .type ∧
    (stateOf .type [] 0#8 0#8 255#8 0#8).totalCnt.toNat = 255 := by decide
/-- PayloadByteIsAppended at its longest buffer, and LastPayloadByteGoesToCheckA. -/
theorem witness_buffering : (stateOf .buffering (f1.take 9) 0xE6#8 0x5E#8 1#8 0#8).pl.len ≤ 9 ∧
    bufState.st = .buffering ∧ bufState.pl.len = 10 := by decide
/-- MatchingChecksumAGoesToCheckB and MismatchedChecksumARejects, at the threshold and one below. -/
theorem witness_checkA : (checkAState 150#8 149#8).st = .checkA ∧ 0xD2#8 ≠ (checkAState 150#8 149#8).ckA ∧
    (checkAState 150#8 149#8).totalCnt.toNat = params.statsThreshold ∧
    (checkAState 149#8 148#8).totalCnt.toNat ≠ params.statsThreshold := by decide
/-- MatchingChecksumBEmitsTheSample and MismatchedChecksumBRejects, at the threshold and one below. -/
theorem witness_checkB : (checkBState 150#8 149#8).st = .checkB ∧ 0x00#8 ≠ (checkBState 150#8 149#8).ckB ∧
    (decodeBytes f1).isSome = true ∧ (checkBState 150#8 149#8).pl.bytes = f1 ∧
    (checkBState 150#8 149#8).goodCnt.toNat < 255 ∧
    (checkBState 150#8 149#8).totalCnt.toNat = params.statsThreshold ∧
    (checkBState 149#8 148#8).totalCnt.toNat ≠ params.statsThreshold := by decide
theorem witness_payload_of_f1 : ∃ p, (checkBState 150#8 149#8).pl.bytes = payloadBytes p :=
  ⟨#v[0x06#8, 0xE8#8, 0x03#8, 0x00#8, 0x00#8, 0xF4#8, 0x01#8, 0x00#8, 0x00#8, 0xEC#8, 0xFF#8], by decide⟩
/-- Le32sReadsASignedField and Le16sReadsASignedField, with the field at the very end of the sequence. -/
theorem witness_fields : f1[7]? = some 0x00#8 ∧ f1[8]? = some 0x00#8 ∧ f1[9]? = some 0xEC#8 ∧ f1[10]? = some 0xFF#8 := by
  decide
/-- ThresholdReportsAndClears, on both sides of the threshold: the test is an equality, so 151 does not report. -/
theorem witness_threshold : (150#8).toNat = params.statsThreshold ∧ (149#8).toNat ≠ params.statsThreshold ∧
    (151#8).toNat ≠ params.statsThreshold := by decide

/-- The frame statements: an operation of each group answers a next state. -/
theorem witness_frames :
    gives (.caMism 0x00#8) (checkAState 150#8 149#8) (fun t => t.totalCnt == 0#8) = true ∧
    gives (.caMism 0x00#8) (checkAState 149#8 148#8) (fun t => t.totalCnt == 149#8) = true ∧
    gives (.bufApp 0x74#8) (stateOf .buffering (f1.take 9) 0xE6#8 0x5E#8 1#8 0#8) (fun t => decide (t.pl.wf)) = true ∧
    gives (.bufLast 0xFF#8) bufState (fun t => t.pl.read 10 == some 0xFF#8) = true ∧
    gives .tySample typeState (fun t => t.goodCnt == 0#8) = true ∧
    gives .reset bufState (fun t => t.pl.len == 0) = true ∧
    gives .idle bufState (fun t => t.events == []) = true := by decide
theorem witness_buffer_form : bufState.pl.wf ∧ (stateOf .buffering (f1.take 9) 0xE6#8 0x5E#8 1#8 0#8).pl.wf := by decide

/-- MeaningsStopOnlyWhereNoRuleApplies: its four clauses. -/
theorem witness_stops : Instr.selected State.reset.selCtx .s2Hit = false ∧
    Instr.selected (stateOf .checkB (f1.take 10) 0xD1#8 0x01#8 1#8 0#8).selCtx (.cbMatch 0x01#8) = true ∧
    (stateOf .checkB (f1.take 10) 0xD1#8 0x01#8 1#8 0#8).pl.len ≠ params.payloadLen ∧
    f1.length < 8 + 4 ∧ f1.length < 10 + 2 := by decide

/-- EveryStepKeepsTheInvariant and CountersNeverWrap: a step that reports, from a state of the invariant. -/
theorem witness_step_from_invariant : ∃ t, Inv (present (Item.byte 0x01#8).pins (checkBState 150#8 149#8)) ∧
    step (present (Item.byte 0x01#8).pins (checkBState 150#8 149#8)) = .next t ∧ .statsReport 150#8 150#8 ∈ t.events := by
  obtain ⟨t, h, e⟩ := exists_of_gives
    (show gives (.cbMatch 0x01#8) (checkBState 150#8 149#8)
      (fun t => decide (Event.statsReport 150#8 150#8 ∈ t.events)) = true by decide)
  exact ⟨t, by constructor <;> decide, h, of_decide_eq_true e⟩

/-- In CHECK_B at the other configuration, the last byte of a frame presented, a report due. -/
def otherState : State :=
  present (Item.byte 0x67#8).pins (stateOf .checkB (0x07#8 :: f1) 0xDB#8 0x67#8 2#8 1#8)

theorem inv_other : Inv otherState otherConfig := by constructor <;> decide

/-- EveryConfigurationKeepsItsInvariant, DecodeInvertsEncodeAtEveryConfiguration. -/
theorem witness_every_configuration :
    otherConfig.Valid ∧ otherConfig.cntW = params.cntW ∧ Inv otherState otherConfig ∧
    (∃ t, stepWith otherConfig otherState = .next t) ∧
    Instr.wf (.s1Miss 0x74#8) otherConfig = true ∧ encode (.s1Miss 0x74#8) otherConfig = some (.byte 0x74#8) ∧
    decodeItem resetCtx (.byte 0x74#8) otherConfig = .ok (.s1Miss 0x74#8) := by
  refine ⟨test_other_valid, rfl, inv_other, ?_, by decide, by decide, by decide⟩
  have h : (match stepWith otherConfig otherState with
    | .next t => t.events == [.sample sampleF1, .statsReport 2#8 2#8]
    | _ => false) = true := by decide
  split at h
  · exact ⟨_, by assumption⟩
  · cases h

/-- ChecksumSeesExchangedNeighbours, ChecksumSeesOneChangedByte, DecodeIsABijectionOnSamplePayloads. -/
theorem witness_checksum : 0x80#8 ≠ 0x00#8 ∧
    (payloadBytes (payloadFor sampleF1)).head? = some params.typeSample ∧
    (payloadBytes (payloadFor sampleF1)).tail = (payloadBytes ((payloadFor sampleF1).set 0 0xAA#8)).tail ∧
    payloadFor sampleF1 ≠ (payloadFor sampleF1).set 0 0xAA#8 := by decide

/-- EveryValidFrameIsAccepted and StraySyncBytesLoseTheFrame: a state one attempt below the threshold, and one two below. -/
theorem witness_valid_frame :
    (Inv (seekState 149#8 149#8) ∧ (seekState 149#8 149#8).st = .seek1 ∧
      (seekState 149#8 149#8).totalCnt.toNat + 1 = params.statsThreshold) ∧
    (Inv (seekState 148#8 0#8) ∧ (seekState 148#8 0#8).st = .seek1 ∧
      (seekState 148#8 0#8).totalCnt.toNat + 1 ≠ params.statsThreshold) :=
  ⟨⟨inv_seek1_149, by decide, by decide⟩, ⟨inv_seek1_148, by decide, by decide⟩⟩

/-- Does a run complete with this holding of its end and its events? -/
def runGives (s : State) (items : List Item) (holds : State → List (Nat × Event) → Bool) : Bool :=
  match run s items with
  | some (t, ev) => holds t ev
  | none => false

theorem exists_of_runGives {s : State} {items : List Item} {holds : State → List (Nat × Event) → Bool}
    (h : runGives s items holds = true) : ∃ t ev, run s items = some (t, ev) ∧ holds t ev = true := by
  unfold runGives at h
  split at h
  · exact ⟨_, _, by assumption, h⟩
  · cases h

/-- EmittedSampleWasOnTheWire: the first 14 bytes of P1's frame, and the byte whose step emits the Sample. -/
theorem witness_emitted_sample : ∃ t ev u,
    run State.reset (byteItems ((encodeSample sampleF1).take 14)) = some (t, ev) ∧
    step (feed (.byte 0x01#8) t) = .next u ∧ .sample sampleF1 ∈ u.events := by
  obtain ⟨t, ev, h, e⟩ := exists_of_runGives
    (show runGives State.reset (byteItems ((encodeSample sampleF1).take 14))
      (fun t _ => match step (feed (.byte 0x01#8) t) with
        | .next u => decide (Event.sample sampleF1 ∈ u.events)
        | _ => false) = true by decide)
  split at e
  · exact ⟨t, ev, _, h, by assumption, of_decide_eq_true e⟩
  · cases e

/-- FrameAfterHarmlessNoiseIsAccepted: the noise of program P3. -/
theorem witness_harmless_noise : ∃ t ev,
    run State.reset (byteItems [0x00#8, 0x74#8, 0x12#8, 0xFF#8, 0x06#8]) = some (t, ev) ∧
    t.st = .seek1 ∧ samplesOf ev = [] := by
  obtain ⟨t, ev, h, e⟩ := exists_of_runGives
    (show runGives State.reset (byteItems [0x00#8, 0x74#8, 0x12#8, 0xFF#8, 0x06#8])
      (fun t ev => decide (t.st = .seek1 ∧ samplesOf ev = [])) = true by decide)
  exact ⟨t, ev, h, of_decide_eq_true e⟩

/-- NoiseWithoutSyncBytesIsIgnored. -/
theorem witness_noise : State.reset.st = .seek1 ∧ params.sync1 ∉ [0x06#8, 0x73#8, 0x75#8] := by decide

/-- IdleItemsMayBeRemoved, StatisticsDoNotFeedBack, GoodCountIsTheNumberOfSamples, QueuedItemsRunAsPresented: a run of an
idle item and the last byte of a frame, from two states that differ in their counters. -/
theorem witness_run : ∃ t ev, run (checkBState 2#8 1#8) [.idle, .byte 0x01#8] = some (t, ev) ∧
    Item.reset ∉ [Item.idle, .byte 0x01#8] ∧ reportsOf ev = [] ∧ Inv (checkBState 2#8 1#8) ∧
    ((checkBState 2#8 1#8).st = (checkBState 150#8 149#8).st ∧ (checkBState 2#8 1#8).pl = (checkBState 150#8 149#8).pl ∧
      (checkBState 2#8 1#8).ckA = (checkBState 150#8 149#8).ckA ∧
      (checkBState 2#8 1#8).ckB = (checkBState 150#8 149#8).ckB) ∧
    (checkBState 2#8 1#8).totalCnt ≠ (checkBState 150#8 149#8).totalCnt := by
  obtain ⟨t, ev, h, e⟩ := exists_of_runGives
    (show runGives (checkBState 2#8 1#8) [.idle, .byte 0x01#8] (fun _ ev => decide (reportsOf ev = [])) = true by decide)
  exact ⟨t, ev, h, by decide, of_decide_eq_true e, by constructor <;> decide, by decide, by decide⟩

/-- FourteenBytesReturnToSeek1: SEEK2 is the state from which all fourteen can be needed. -/
theorem witness_fourteen_bytes : Inv (stateOf .seek2 [] 0#8 0#8 0#8 0#8) ∧
    (stateOf .seek2 [] 0#8 0#8 0#8 0#8).st ≠ .seek1 ∧ (List.replicate 14 0x74#8).length = 14 :=
  ⟨inv_seek2, by decide, by decide⟩

/-- EventListsOfAStep and PortsShowTheEventsOfAStep: steps with one event and with two. -/
theorem witness_event_lists :
    after (.byte 0x03#8) typeState = some ((stateOf .seek1 [] 0#8 0#8 0#8 0#8).block, [.unknownType 0x03#8]) ∧
    (after (.byte 0x01#8) (checkBState 150#8 149#8)).map (·.2) = some [.sample sampleF1, .statsReport 150#8 150#8] := by
  decide

/-- AcceptanceIsByChecksumAlone. -/
theorem witness_acceptance : Inv (checkAState 1#8 0#8) ∧ (checkAState 1#8 0#8).st = .checkA := ⟨inv_checkA_1, by decide⟩

/-- OneCorruptedByteIsAlwaysCaught, at the first offset of its range and at the two checksum bytes. -/
theorem witness_corrupted : (encodeSample sampleF1)[3]? ≠ some 0x68#8 ∧ (encodeSample sampleF1)[12]? ≠ some 0x00#8 ∧
    (encodeSample sampleF1)[13]? ≠ some 0x2E#8 ∧ (encodeSample sampleF1)[14]? ≠ some 0xFE#8 := by
  decide

/-- OneCorruptedHeadByteLosesTheFrame, at each of its three offsets. -/
theorem witness_corrupted_head : (encodeSample sampleF1)[0]? ≠ some 0x75#8 ∧ (encodeSample sampleF1)[1]? ≠ some 0x06#8 ∧
    (encodeSample sampleF1)[2]? ≠ some 0x74#8 := by decide

/-- OneHundredFiftyFramesAreReported. -/
theorem witness_150 : (List.replicate 150 sampleF1).length = 150 := by simp

end Sys2Proof.Tests
end

section
/-! # The checksum engine alone: CK.CLEAR and CK.ABSORB (spec 40_checksum_engine.md) -/

namespace Sys2Proof.Machine

/-- Settles O23: the laws of the model give CK.CLEAR its only successor, in every state. -/
theorem clearZeroesTheAccumulators : Obligations.ClearZeroesTheAccumulators := by
  intro s
  exact exec_ckClear_next.2 rfl

/-- Settles O24: the two new sums are sums of bytes, and an addition of bytes is the addition modulo 256 of their unsigned
values. -/
theorem absorbAddsModulo256 : Obligations.AbsorbAddsModulo256 := by
  intro s v
  refine ⟨s.ckA + v, s.ckB + (s.ckA + v), exec_ckAbsorb_next.2 rfl, ?_, ?_⟩
  · exact BitVec.toNat_add s.ckA v
  · exact BitVec.toNat_add s.ckB (s.ckA + v)

end Sys2Proof.Machine
end

section
/-! # Seven transitions of the frame synchronizer, by themselves and as the step on a presented byte (spec
42_frame_synchronizer.md): the two sync bytes, the type byte, the payload bytes and checksum A. -/

namespace Sys2Proof.Machine

variable {s t : State}

/-! ## The step on a presented byte, and the two meanings with their numbers filled in -/

/-- The step on a presented byte answers what the operation that byte selects answers with the step's own outputs empty. -/
theorem step_present_byte_next {v : Byte} {i : Instr} (selects : decodeByte s.selCtx v = .ok i)
    (runs : exec i { s with events := [], result := none } = .next t) :
    step (present (Item.byte v).pins s) = .next t :=
  (step_present (by rw [item_pins]; exact selects)).trans runs

/-- TY.SAMPLE where the new count fits: it is the count plus one, and no free value is drawn. -/
theorem exec_tySample_of_fits (hs : s.st = .type) (fits : s.totalCnt.toNat < 255) :
    exec .tySample s = .next { s with
      st := .buffering, pl := [(0, params.typeSample)], ckA := params.typeSample, ckB := params.typeSample,
      totalCnt := s.totalCnt + 1 } :=
  exec_tySample_next.2 ⟨hs, by rw [incCounter_of_fits fits, drawsAfterInc_of_fits fits]⟩

/-- BUF.APP with at most nine bytes buffered, the eleventh not being the next. -/
theorem exec_bufApp_of_le (v : Byte) (hs : s.st = .buffering) (room : s.pl.len ≤ 9) :
    exec (.bufApp v) s = .next { s with
      pl := s.pl ++ [(s.pl.len, v)], ckA := s.ckA + v, ckB := s.ckB + (s.ckA + v) } :=
  exec_bufApp_next.2 ⟨⟨hs, by rw [params_payloadLen]; omega⟩, rfl⟩

/-- BUF.LAST with ten bytes buffered: the byte lands at index 10. -/
theorem exec_bufLast_of_len_eq (v : Byte) (hs : s.st = .buffering) (last : s.pl.len = 10) :
    exec (.bufLast v) s = .next { s with
      st := .checkA, pl := s.pl ++ [(10, v)], ckA := s.ckA + v, ckB := s.ckB + (s.ckA + v) } :=
  exec_bufLast_next.2 ⟨⟨hs, by rw [last, params_payloadLen]⟩, by rw [Memory.append, last]⟩

/-- Under the invariant the accumulators that absorb one more byte are the checksum of the buffer with that byte. -/
theorem Inv.sums_absorb (h : Inv s) (v : Byte) :
    (s.ckA + v, s.ckB + (s.ckA + v)) = checksum (s.pl.bytes ++ [v]) := by
  rw [checksum_append, ← h.sums, absorb_eq]

/-! ## The statements -/

/-- Settles O10: in SEEK1 the byte SYNC1 selects S1.HIT, whose only effect is `st`. -/
theorem firstSyncByteGoesToSeek2 : Obligations.FirstSyncByteGoesToSeek2 := by
  intro s hs
  exact ⟨exec_s1Hit_next.2 ⟨hs, rfl⟩,
    step_present_byte_next (decodes_s1Hit hs) (exec_s1Hit_next.2 ⟨hs, rfl⟩)⟩

/-- Settles O11: in SEEK1 any other byte selects S1.MISS, which answers the state it is given. -/
theorem otherByteStaysInSeek1 : Obligations.OtherByteStaysInSeek1 := by
  intro s v hs hv
  exact ⟨exec_s1Miss_next.2 ⟨⟨hs, hv⟩, rfl⟩,
    step_present_byte_next (decodes_s1Miss hs hv) (exec_s1Miss_next.2 ⟨⟨hs, hv⟩, rfl⟩)⟩

/-- Settles O12: in SEEK2 the byte SYNC2 selects S2.HIT, whose only effect is `st`. -/
theorem secondSyncByteGoesToType : Obligations.SecondSyncByteGoesToType := by
  intro s hs
  exact ⟨exec_s2Hit_next.2 ⟨hs, rfl⟩,
    step_present_byte_next (decodes_s2Hit hs) (exec_s2Hit_next.2 ⟨hs, rfl⟩)⟩

/-- Settles O14: below 255 the new count fits, so TY.SAMPLE has no free value. -/
theorem sampleTypeStartsAnAttempt : Obligations.SampleTypeStartsAnAttempt := by
  intro s hs fits
  exact ⟨exec_tySample_of_fits hs fits,
    step_present_byte_next (decodes_tySample hs) (exec_tySample_of_fits hs fits)⟩

/-- Settles O17: with at most nine bytes buffered any byte selects BUF.APP. -/
theorem payloadByteIsAppended : Obligations.PayloadByteIsAppended := by
  intro s v hs room
  have selects : decodeByte s.selCtx v = .ok (.bufApp v) := decodes_bufApp hs (by rw [params_payloadLen]; omega)
  exact ⟨exec_bufApp_of_le v hs room, step_present_byte_next selects (exec_bufApp_of_le v hs room)⟩

/-- Settles O18: with ten bytes buffered any byte selects BUF.LAST, and the invariant's sums absorb it. -/
theorem lastPayloadByteGoesToCheckA : Obligations.LastPayloadByteGoesToCheckA := by
  intro s v hs last
  have selects : decodeByte s.selCtx v = .ok (.bufLast v) := decodes_bufLast hs (by rw [last, params_payloadLen])
  exact ⟨exec_bufLast_of_len_eq v hs last, step_present_byte_next selects (exec_bufLast_of_len_eq v hs last),
    fun inv => inv.sums_absorb v⟩

/-- Settles O19: in CHECK_A the byte `ck_a` selects CA.MATCH, and the invariant's sums give `ck_a` its value. -/
theorem matchingChecksumAGoesToCheckB : Obligations.MatchingChecksumAGoesToCheckB := by
  intro s hs
  exact ⟨exec_caMatch_next.2 ⟨⟨hs, rfl⟩, rfl⟩,
    step_present_byte_next (decodes_caMatch hs) (exec_caMatch_next.2 ⟨⟨hs, rfl⟩, rfl⟩),
    fun inv => congrArg Prod.fst inv.sums⟩

end Sys2Proof.Machine
end

section
/-! # The decoder and the encoder (spec 30_encoding.md section 4): they agree at every configuration, the document's
included; the rows of the opcode table; where the decoder refuses. -/

namespace Sys2Proof.Machine

variable {c : Config} {x : SelCtx} {i : Instr} {it : Item}

/-! ## Decoding against the operand lines -/

/-- The operation a byte selects has its operand line and carries that byte. -/
theorem selected_and_encode_of_decodeByte {v : Byte} (h : decodeByte x v c = .ok i) :
    i.selected x c = true ∧ encode i c = some (.byte v) := by
  unfold decodeByte at h
  split at h
  case h_4 hs =>
    split at h
    · next room => cases h; simp [Instr.selected, encode, hs, room]
    · split at h
      · next last => cases h; simp [Instr.selected, encode, hs, last]
      · cases h
  all_goals
    next hs =>
      cases h
      split
      · next hv => simp [Instr.selected, encode, hs, hv]
      · next hv => simp [Instr.selected, encode, hs, hv]

/-- An operation is what the item it is encoded as selects, wherever its operand line holds. -/
theorem decodeItem_of_selected (sel : i.selected x c = true) (enc : encode i c = some it) :
    decodeItem x it c = .ok i := by
  cases i <;> simp only [encode, Option.some.injEq, reduceCtorEq] at enc <;> subst enc <;>
    simp only [Instr.selected, Bool.and_eq_true, beq_iff_eq, bne_iff_ne, ne_eq, decide_eq_true_eq] at sel
  all_goals simp [decodeItem, decodeByte, sel]

/-- Decoding and encoding agree (spec R76, R142). -/
theorem decodeItem_eq_ok_iff : decodeItem x it c = .ok i ↔ i.selected x c = true ∧ encode i c = some it := by
  refine ⟨fun h => ?_, fun ⟨sel, enc⟩ => decodeItem_of_selected sel enc⟩
  cases it with
  | reset => cases h; exact ⟨rfl, rfl⟩
  | byte v => exact selected_and_encode_of_decodeByte h
  | idle => cases h; exact ⟨rfl, rfl⟩

/-- Where an operand line holds, the part of it that speaks of the operands alone does. -/
theorem wf_of_selected (sel : i.selected x c = true) : i.wf c = true := by
  cases i with
  | s1Miss v => exact (Bool.and_eq_true_iff.1 sel).2
  | s2Miss v => exact (Bool.and_eq_true_iff.1 sel).2
  | tyUnk v => exact (Bool.and_eq_true_iff.1 sel).2
  | le32s p k => cases sel
  | le16s p k => cases sel
  | _ => rfl

/-- A context in which an operation's operand line holds, where one exists: its state, a length with just the room it needs,
and its own byte in the accumulator it is compared with, or another byte for the two that need a mismatch. -/
def selectingCtx (i : Instr) (c : Config) : SelCtx :=
  match i with
  | .s2Hit | .s2Miss _ => ⟨.seek2, 0, 0#8, 0#8⟩
  | .tySample | .tyUnk _ => ⟨.type, 0, 0#8, 0#8⟩
  | .bufApp _ => ⟨.buffering, 0, 0#8, 0#8⟩
  | .bufLast _ => ⟨.buffering, c.payloadLen - 1, 0#8, 0#8⟩
  | .caMatch v => ⟨.checkA, 0, v, 0#8⟩
  | .caMism v => ⟨.checkA, 0, v + 1, 0#8⟩
  | .cbMatch v => ⟨.checkB, 0, 0#8, v⟩
  | .cbMism v => ⟨.checkB, 0, 0#8, v + 1⟩
  | _ => ⟨.seek1, 0, 0#8, 0#8⟩

/-- A well-formed operation that has an encoding is selected somewhere: a valid configuration has a payload of two bytes or
more. -/
theorem selected_selectingCtx (hc : c.Valid) (hwf : i.wf c = true) (enc : encode i c = some it) :
    i.selected (selectingCtx i c) c = true := by
  obtain ⟨-, -, payload, -⟩ := hc
  cases i with
  | s1Miss v => exact hwf
  | s2Miss v => exact hwf
  | tyUnk v => exact hwf
  | bufApp v =>
    have room : 0 + 1 < c.payloadLen := by omega
    simp [Instr.selected, selectingCtx, room]
  | bufLast v =>
    have last : c.payloadLen - 1 + 1 = c.payloadLen := by omega
    simp [Instr.selected, selectingCtx, last]
  | caMatch v => simp [Instr.selected, selectingCtx]
  | caMism v => simp [Instr.selected, selectingCtx]
  | cbMatch v => simp [Instr.selected, selectingCtx]
  | cbMism v => simp [Instr.selected, selectingCtx]
  | ckClear => cases enc
  | ckAbsorb v => cases enc
  | le32s p k => cases enc
  | le16s p k => cases enc
  | decode p => cases enc
  | statCheck g => cases enc
  | _ => rfl

/-- Settles O59: decoding is selection by the operand line, at every configuration. -/
theorem decodeInvertsEncodeAtEveryConfiguration : Obligations.DecodeInvertsEncodeAtEveryConfiguration := by
  intro c
  refine ⟨fun x it i => ?_, fun hc i it hwf enc => ?_, fun x it i h => ?_⟩
  · rw [item_pins]; exact decodeItem_eq_ok_iff
  · exact ⟨selectingCtx i c, decodeItem_of_selected (selected_selectingCtx hc hwf enc) enc⟩
  · exact wf_of_selected (decodeItem_eq_ok_iff.1 h).1

/-- Settles O2: the document's values are a valid configuration. -/
theorem decodeInvertsEncode : Obligations.DecodeInvertsEncode := by
  obtain ⟨agree, reached, formed⟩ := decodeInvertsEncodeAtEveryConfiguration params
  exact ⟨agree, reached params_valid, formed⟩

/-! ## Where the decoder refuses -/

/-- Settles O5: of the six states only BUFFERING has a byte without a transition, at a full buffer. -/
theorem decoderRefusesOnlyAFullBuffer : Obligations.DecoderRefusesOnlyAFullBuffer := by
  refine ⟨fun x it e => ⟨fun h => ?_, ?_⟩, fun x bs h => ?_⟩
  · cases it with
    | reset => cases h
    | idle => cases h
    | byte v =>
      rw [decodeItem_byte] at h
      cases hs : x.st with
      | buffering =>
        rcases Nat.lt_trichotomy (x.plLen + 1) params.payloadLen with room | last | full
        · rw [decodeByte_buffering_more hs room] at h; cases h
        · rw [decodeByte_buffering_last hs last] at h; cases h
        · have full : params.payloadLen ≤ x.plLen := Nat.lt_succ_iff.1 full
          rw [decodeByte_buffering_full hs full] at h
          cases h
          exact ⟨rfl, rfl, full, v, rfl⟩
      | _ => simp [decodeByte, hs] at h
  · rintro ⟨rfl, hs, full, v, rfl⟩
    exact decodeByte_buffering_full hs full
  · match bs, h with
    | [], _ => rfl
    | [_], h => exact absurd rfl h
    | _ :: _ :: _, _ => rfl

/-! ## The rows of the opcode table -/

/-- The mask of the table's conditions is the whole byte. -/
theorem holds_const (p v : Byte) (n : Bool) : RowCond.holds x v (.const p 0xFF#8 n) = ((v == p) != n) := by
  have mask : v &&& 0xFF#8 = v := BitVec.and_allOnes
  rw [RowCond.holds, mask]

/-- The rows that take a byte are the decoder's one row, or none where it gives no operation. -/
theorem mnemonics_of_rows_that_take (x : SelCtx) (v : Byte) : (byteRows.filter (·.takes x v)).map (·.mnemonic) =
    ((decodeByte x v).toOption.map (·.mnemonic)).toList := by
  cases hs : x.st with
  | buffering =>
    rcases Nat.lt_trichotomy (x.plLen + 1) params.payloadLen with room | last | full
    · rw [decodeByte_buffering_more hs room]
      rw [params_payloadLen] at room
      have more : x.plLen ≤ 9 ∧ x.plLen ≠ 10 := by omega
      simp [Except.toOption, byteRows, Row.takes, RowCond.holds, hs, more, Instr.mnemonic]
    · rw [decodeByte_buffering_last hs last]
      have last : x.plLen = 10 := by simpa using last
      simp [Except.toOption, byteRows, Row.takes, RowCond.holds, hs, last, Instr.mnemonic]
    · rw [decodeByte_buffering_full hs (Nat.lt_succ_iff.1 full)]
      rw [params_payloadLen] at full
      have full : ¬ x.plLen ≤ 9 ∧ x.plLen ≠ 10 := by omega
      simp [Except.toOption, byteRows, Row.takes, RowCond.holds, hs, full]
  | seek1 =>
    rw [decodeByte_seek1 hs]
    by_cases hv : v = 0x74#8 <;> simp [Except.toOption, byteRows, Row.takes, holds_const, hs, hv, Instr.mnemonic]
  | seek2 =>
    rw [decodeByte_seek2 hs]
    by_cases hv : v = 0x74#8 <;> simp [Except.toOption, byteRows, Row.takes, holds_const, hs, hv, Instr.mnemonic]
  | type =>
    rw [decodeByte_type hs]
    by_cases hv : v = 0x06#8 <;> simp [Except.toOption, byteRows, Row.takes, holds_const, hs, hv, Instr.mnemonic]
  | checkA =>
    rw [decodeByte_checkA hs]
    by_cases hv : v = x.ckA <;> simp [Except.toOption, byteRows, Row.takes, RowCond.holds, hs, hv, Instr.mnemonic]
  | checkB =>
    rw [decodeByte_checkB hs]
    by_cases hv : v = x.ckB <;> simp [Except.toOption, byteRows, Row.takes, RowCond.holds, hs, hv, Instr.mnemonic]

/-- A row is found by its name. -/
theorem find_row_of_mem : ∀ r ∈ byteRows, byteRows.find? (·.mnemonic == r.mnemonic) = some r := by decide

/-- A row names the state that the operation of its name goes to. -/
theorem st_eq_next_of_row {r : Row} {s t : State} (hr : r ∈ byteRows) (name : r.mnemonic = i.mnemonic)
    (h : exec i s = .next t) : t.st = r.next := by
  have found := find_row_of_mem r hr
  rw [name] at found
  cases i <;> simp [byteRows, Instr.mnemonic] at found <;> subst found
  case s1Hit => rw [(exec_s1Hit_next.1 h).2]; rfl
  case s1Miss => obtain ⟨⟨hs, -⟩, rfl⟩ := exec_s1Miss_next.1 h; exact hs
  case s2Hit => rw [(exec_s2Hit_next.1 h).2]; rfl
  case s2Miss => rw [(exec_s2Miss_next.1 h).2]; rfl
  case tySample => rw [(exec_tySample_next.1 h).2]
  case tyUnk => rw [(exec_tyUnk_next.1 h).2]; rfl
  case bufApp => obtain ⟨⟨hs, -⟩, rfl⟩ := exec_bufApp_next.1 h; exact hs
  case bufLast => rw [(exec_bufLast_next.1 h).2]
  case caMatch => rw [(exec_caMatch_next.1 h).2]; rfl
  case caMism => rw [(exec_caMism_next.1 h).2, statCheckOp_st]; rfl
  case cbMatch => obtain ⟨-, p, -, rfl⟩ := exec_cbMatch_next.1 h; rw [statCheckOp_st]; rfl
  case cbMism => rw [(exec_cbMism_next.1 h).2, statCheckOp_st]; rfl

/-- Settles O3: a row that takes a byte is among the rows that do, so it has the name of the decoder's operation. -/
theorem tableRowsAgreeWithTheMachine : Obligations.TableRowsAgreeWithTheMachine := by
  refine ⟨fun x v => ?_, fun s t v i r hr takes dec h => ?_⟩
  · rw [mnemonics_of_rows_that_take]
    cases decodeByte x v <;> rfl
  · have named : r.mnemonic ∈ (byteRows.filter (·.takes s.selCtx v)).map (·.mnemonic) :=
      List.mem_map_of_mem (List.mem_filter.2 ⟨hr, takes⟩)
    rw [mnemonics_of_rows_that_take, dec] at named
    exact st_eq_next_of_row hr (List.mem_singleton.1 named) h

/-! ## Words and pins -/

/-- Settles O1: each word is decoded by evaluating the decoder. -/
theorem wordsDecodeAsTheTableSays : Obligations.WordsDecodeAsTheTableSays := by
  unfold Obligations.WordsDecodeAsTheTableSays
  decide

/-- Settles O4: the three cases of `Pins.item`, in its order. -/
theorem pinsPresentOneItem : Obligations.PinsPresentOneItem := by
  intro valid v
  exact ⟨item_of_rst _ rfl, rfl, rfl⟩

end Sys2Proof.Machine
end

section
/-! # The invariant (spec 10_state.md section 4): at every valid configuration reset has it, every step keeps it, and every
step from it completes; the document's machine is one of these. -/

namespace Sys2Proof.Machine

variable {c : Config} {s t : State} {i : Instr}

/-! ## Reset and the moves of the synchronizer -/

theorem inv_reset (hc : c.Valid) : Inv State.reset c := by
  obtain ⟨pos, -⟩ := hc
  exact {
    buffer := Memory.wf_nil
    lenBuffering := nofun
    lenChecking := nofun
    lenSeeking := fun _ => .inl rfl
    firstByte := nofun
    sums := rfl
    goodLeTotal := Nat.le_refl _
    totalLe := Nat.zero_le _
    totalSeeking := fun _ => pos
    inFlight := nofun }

/-- A move among the three states outside a frame attempt, whatever it emits, keeps the invariant. -/
theorem Inv.of_seeking (h : Inv s c) (before : s.st = .seek1 ∨ s.st = .seek2 ∨ s.st = .type)
    (after : t.st = .seek1 ∨ t.st = .seek2 ∨ t.st = .type) (same : t.block = { s.block with st := t.st }) : Inv t c := by
  have moved : Inv (goto t.st s) c := {
    buffer := h.buffer
    lenBuffering := fun e => by rw [goto_st] at e; simp [e] at after
    lenChecking := fun e => by rw [goto_st] at e; rcases e with e | e <;> simp [e] at after
    lenSeeking := fun _ => h.lenSeeking before
    firstByte := h.firstByte
    sums := h.sums
    goodLeTotal := h.goodLeTotal
    totalLe := h.totalLe
    totalSeeking := fun _ => h.totalSeeking before
    inFlight := fun e => by rw [goto_st] at e; rcases e with e | e | e <;> simp [e] at after }
  exact moved.congr same

/-- The start of an attempt keeps the invariant: the count it takes fits, since the threshold does. -/
theorem Inv.tySample (hc : c.Valid) (width : c.cntW = params.cntW) (h : Inv s c) (hs : s.st = .type) : Inv { s with
    st := .buffering, pl := [(0, c.typeSample)],
    ckA := (checksum [c.typeSample] c).1, ckB := (checksum [c.typeSample] c).2,
    totalCnt := incCounter s.totalCnt s.draws, draws := drawsAfterInc s.totalCnt s.draws } c := by
  obtain ⟨-, fits, payload, -⟩ := hc
  rw [width, two_pow_cntW] at fits
  have room := h.totalSeeking (.inr (.inr hs))
  have total : (incCounter s.totalCnt s.draws).toNat = s.totalCnt.toNat + 1 := toNat_incCounter (by omega) _
  have good := h.goodLeTotal
  have two : 2 ≤ c.payloadLen := by omega
  exact {
    buffer := ⟨rfl, by simp; omega⟩
    lenBuffering := fun _ => ⟨Nat.le_refl 1, two⟩
    lenChecking := nofun
    lenSeeking := nofun
    firstByte := fun _ => rfl
    sums := rfl
    goodLeTotal := by simp only [total]; omega
    totalLe := by simp only [total]; exact room
    totalSeeking := nofun
    inFlight := fun _ => by simp only [total]; omega }

/-- One more payload byte keeps the invariant, where the next state is the one its length asks for. -/
theorem Inv.append {x : St} (h : Inv s c) (hs : s.st = .buffering) (v : Byte)
    (next : x = .buffering ∧ s.pl.len + 1 < c.payloadLen ∨ x = .checkA ∧ s.pl.len + 1 = c.payloadLen) : Inv { s with
    st := x, pl := s.pl.append v,
    ckA := (absorb (s.ckA, s.ckB) v c).1, ckB := (absorb (s.ckA, s.ckB) v c).2 } c := by
  obtain ⟨some_byte, room⟩ := h.lenBuffering hs
  have flight := h.inFlight (.inl hs)
  have in_attempt : ¬ (x = .seek1 ∨ x = .seek2 ∨ x = .type) := by
    rcases next with ⟨rfl, -⟩ | ⟨rfl, -⟩ <;> simp
  have more (e : x = .buffering) : s.pl.len + 1 < c.payloadLen := by simpa [e] using next
  have last (e : x = .checkA ∨ x = .checkB) : s.pl.len + 1 = c.payloadLen := by
    rcases e with rfl | rfl
    · simpa using next
    · simp at next
  exact {
    buffer := Memory.wf_append h.buffer room v
    lenBuffering := fun e => by rw [Memory.len_append]; exact ⟨Nat.le_add_left .., more e⟩
    lenChecking := fun e => by rw [Memory.len_append]; exact last e
    lenSeeking := fun e => absurd e in_attempt
    firstByte := fun _ => by simp [List.head?_append, h.firstByte some_byte]
    sums := by rw [Memory.bytes_append, checksum_append, ← h.sums]
    goodLeTotal := h.goodLeTotal
    totalLe := h.totalLe
    totalSeeking := fun e => absurd e in_attempt
    inFlight := fun _ => flight }

theorem Inv.caMatch (h : Inv s c) (hs : s.st = .checkA) : Inv (goto .checkB s) c where
  buffer := h.buffer
  lenBuffering := nofun
  lenChecking _ := h.lenChecking (.inl hs)
  lenSeeking := nofun
  firstByte := h.firstByte
  sums := h.sums
  goodLeTotal := h.goodLeTotal
  totalLe := h.totalLe
  totalSeeking := nofun
  inFlight _ := h.inFlight (.inr (.inl hs))

/-- The end of an attempt keeps the invariant: the threshold test leaves the total below the threshold, or 0. -/
theorem Inv.endOfAttempt (hc : c.Valid) (h : Inv s c) (hs : s.st = .checkA ∨ s.st = .checkB) (g : Counter)
    (back : t.st = .seek1) (pl : t.pl = s.pl) (ckA : t.ckA = s.ckA) (ckB : t.ckB = s.ckB)
    (total : t.totalCnt = s.totalCnt) (good : t.goodCnt.toNat ≤ s.totalCnt.toNat) : Inv (statCheckOp g t c) c := by
  obtain ⟨pos, -⟩ := hc
  have counts : (statCheckOp g t c).goodCnt.toNat ≤ (statCheckOp g t c).totalCnt.toNat ∧
      (statCheckOp g t c).totalCnt.toNat + 1 ≤ c.statsThreshold := by
    by_cases due : t.totalCnt.toNat = c.statsThreshold
    · rw [statCheckOp_eq_at due]; exact ⟨Nat.le_refl _, pos⟩
    · have below := h.totalLe
      rw [statCheckOp_eq_self due]
      rw [total] at due ⊢
      exact ⟨good, by omega⟩
  obtain ⟨goodLe, totalLt⟩ := counts
  exact {
    buffer := by rw [statCheckOp_pl, pl]; exact h.buffer
    lenBuffering := fun e => by simp [back] at e
    lenChecking := fun e => by simp [back] at e
    lenSeeking := fun _ => by rw [statCheckOp_pl, pl]; exact .inr (h.lenChecking hs)
    firstByte := by rw [statCheckOp_pl, pl]; exact h.firstByte
    sums := by rw [statCheckOp_pl, statCheckOp_ckA, statCheckOp_ckB, pl, ckA, ckB]; exact h.sums
    goodLeTotal := goodLe
    totalLe := Nat.le_of_succ_le totalLt
    totalSeeking := fun _ => totalLt
    inFlight := fun e => by simp [back] at e }

/-- The attempt in flight is not yet good, so its success still fits. -/
theorem Inv.goodCnt_lt_of_valid (hc : c.Valid) (width : c.cntW = params.cntW) (h : Inv s c)
    (hs : s.st = .buffering ∨ s.st = .checkA ∨ s.st = .checkB) : s.goodCnt.toNat < 255 := by
  obtain ⟨-, fits, -⟩ := hc
  rw [width, two_pow_cntW] at fits
  have flight := h.inFlight hs
  have total := h.totalLe
  omega

/-! ## One operation -/

/-- An operation that an item can select keeps the invariant where it is selected. -/
theorem Inv.of_execWith (hc : c.Valid) (width : c.cntW = params.cntW) (h : Inv s c) (sel : i.selected s.selCtx c = true)
    (run : execWith c i s = .next t) : Inv t c := by
  cases i with
  | s1Hit => obtain ⟨hs, rfl⟩ := execWith_s1Hit_next.1 run; exact h.of_seeking (.inl hs) (.inr (.inl rfl)) rfl
  | s1Miss v => obtain ⟨-, rfl⟩ := execWith_s1Miss_next.1 run; exact h
  | s2Hit =>
    obtain ⟨hs, rfl⟩ := execWith_s2Hit_next.1 run
    exact h.of_seeking (.inr (.inl hs)) (.inr (.inr rfl)) rfl
  | s2Miss v =>
    obtain ⟨⟨hs, -⟩, rfl⟩ := execWith_s2Miss_next.1 run
    exact h.of_seeking (.inr (.inl hs)) (.inl rfl) rfl
  | tySample => obtain ⟨hs, rfl⟩ := execWith_tySample_next.1 run; exact h.tySample hc width hs
  | tyUnk v =>
    obtain ⟨⟨hs, -⟩, rfl⟩ := execWith_tyUnk_next.1 run
    exact h.of_seeking (.inr (.inr hs)) (.inl rfl) rfl
  | bufApp v =>
    obtain ⟨⟨hs, more⟩, rfl⟩ := execWith_bufApp_next.1 run
    have := h.append hs v (.inl ⟨rfl, more⟩)
    rwa [← hs] at this
  | bufLast v => obtain ⟨⟨hs, last⟩, rfl⟩ := execWith_bufLast_next.1 run; exact h.append hs v (.inr ⟨rfl, last⟩)
  | caMatch v => obtain ⟨⟨hs, -⟩, rfl⟩ := execWith_caMatch_next.1 run; exact h.caMatch hs
  | caMism v =>
    obtain ⟨⟨hs, -⟩, rfl⟩ := execWith_caMism_next.1 run
    exact h.endOfAttempt hc (.inl hs) _ rfl rfl rfl rfl rfl h.goodLeTotal
  | cbMatch v =>
    obtain ⟨⟨hs, -⟩, -, rfl⟩ := execWith_cbMatch_next.1 run
    refine h.endOfAttempt hc (.inr hs) _ rfl rfl rfl rfl rfl ?_
    have good : (incCounter s.goodCnt s.draws).toNat = s.goodCnt.toNat + 1 :=
      toNat_incCounter (h.goodCnt_lt_of_valid hc width (.inr (.inr hs))) _
    exact good.trans_le (h.inFlight (.inr (.inr hs)))
  | cbMism v =>
    obtain ⟨⟨hs, -⟩, rfl⟩ := execWith_cbMism_next.1 run
    exact h.endOfAttempt hc (.inr hs) _ rfl rfl rfl rfl rfl h.goodLeTotal
  | reset => rw [execWith_reset_next.1 run]; exact (inv_reset hc).congr rfl
  | idle => rw [execWith_idle_next.1 run]; exact h
  | _ => cases sel

/-- An operation that an item can select answers a next state where it is selected: CB.MATCH finds a complete payload. -/
theorem Inv.execWith_completes (h : Inv s c) (sel : i.selected s.selCtx c = true) : ∃ t, execWith c i s = .next t := by
  cases i with
  | s1Hit => exact ⟨_, execWith_s1Hit_next.2 ⟨by simpa [Instr.selected] using sel, rfl⟩⟩
  | s1Miss v => exact ⟨_, execWith_s1Miss_next.2 ⟨by simpa [Instr.selected] using sel, rfl⟩⟩
  | s2Hit => exact ⟨_, execWith_s2Hit_next.2 ⟨by simpa [Instr.selected] using sel, rfl⟩⟩
  | s2Miss v => exact ⟨_, execWith_s2Miss_next.2 ⟨by simpa [Instr.selected] using sel, rfl⟩⟩
  | tySample => exact ⟨_, execWith_tySample_next.2 ⟨by simpa [Instr.selected] using sel, rfl⟩⟩
  | tyUnk v => exact ⟨_, execWith_tyUnk_next.2 ⟨by simpa [Instr.selected] using sel, rfl⟩⟩
  | bufApp v => exact ⟨_, execWith_bufApp_next.2 ⟨selected_bufApp.1 sel, rfl⟩⟩
  | bufLast v => exact ⟨_, execWith_bufLast_next.2 ⟨selected_bufLast.1 sel, rfl⟩⟩
  | caMatch v => exact ⟨_, execWith_caMatch_next.2 ⟨by simpa [Instr.selected] using sel, rfl⟩⟩
  | caMism v => exact ⟨_, execWith_caMism_next.2 ⟨by simpa [Instr.selected] using sel, rfl⟩⟩
  | cbMatch v =>
    have line : s.st = .checkB ∧ v = s.ckB := by simpa [Instr.selected] using sel
    exact ⟨_, execWith_cbMatch_next.2 ⟨line, h.lenChecking (.inr line.1), rfl⟩⟩
  | cbMism v => exact ⟨_, execWith_cbMism_next.2 ⟨by simpa [Instr.selected] using sel, rfl⟩⟩
  | reset => exact ⟨_, execWith_reset_next.2 rfl⟩
  | idle => exact ⟨_, execWith_idle_next.2 rfl⟩
  | _ => cases sel

/-! ## One step -/

/-- Outside a full buffer in BUFFERING every item selects an operation, so in every state of the invariant it does. -/
theorem Inv.decodes (h : Inv s c) (it : Item) : ∃ i, decodeItem s.selCtx it c = .ok i := by
  cases it with
  | reset => exact ⟨_, rfl⟩
  | idle => exact ⟨_, rfl⟩
  | byte v =>
    cases hs : s.st with
    | buffering =>
      obtain ⟨-, room⟩ := h.lenBuffering hs
      rcases Nat.lt_or_eq_of_le room with more | last
      · exact ⟨.bufApp v, decodeItem_of_selected (selected_bufApp.2 ⟨hs, more⟩) rfl⟩
      · exact ⟨.bufLast v, decodeItem_of_selected (selected_bufLast.2 ⟨hs, last⟩) rfl⟩
    | _ => simp [decodeItem, decodeByte, hs]

theorem stepWith_of_decode (h : decodeItem s.selCtx s.nextItem c = .ok i) :
    stepWith c s = execWith c i (beginStep s) := by
  simp [stepWith, h]

theorem Inv.of_stepWith (hc : c.Valid) (width : c.cntW = params.cntW) (h : Inv s c) (run : stepWith c s = .next t) :
    Inv t c := by
  obtain ⟨i, dec⟩ := h.decodes s.nextItem
  rw [stepWith_of_decode dec] at run
  have sel : i.selected (beginStep s).selCtx c = true := (decodeItem_eq_ok_iff.1 dec).1
  have quiet : Inv (beginStep s) c := h.congr rfl
  exact quiet.of_execWith hc width sel run

theorem Inv.stepWith_completes (h : Inv s c) : ∃ t, stepWith c s = .next t := by
  obtain ⟨i, dec⟩ := h.decodes s.nextItem
  rw [stepWith_of_decode dec]
  have sel : i.selected (beginStep s).selCtx c = true := (decodeItem_eq_ok_iff.1 dec).1
  have quiet : Inv (beginStep s) c := h.congr rfl
  exact quiet.execWith_completes sel

/-! ## The statements -/

/-- Settles O60: the step at a configuration is the operation its item selects there. -/
theorem everyConfigurationKeepsItsInvariant : Obligations.EveryConfigurationKeepsItsInvariant :=
  ⟨fun _ hc width => ⟨inv_reset hc, fun _ _ h run => h.of_stepWith hc width run, fun _ h => h.stepWith_completes⟩,
    step_eq_stepWith⟩

/-- At the document's values the step keeps the invariant. -/
theorem Inv.of_step (h : Inv s) (run : step s = .next t) : Inv t :=
  h.of_stepWith params_valid rfl (step_eq_stepWith s ▸ run)

theorem Inv.step_completes (h : Inv s) : StepCompletes s := by
  rw [StepCompletes, step_eq_stepWith]
  exact h.stepWith_completes

/-- Settles O34: the document's values are a valid configuration. -/
theorem invariantHoldsAtReset : Obligations.InvariantHoldsAtReset := inv_reset params_valid

/-- Settles O35: the document's machine is the configured one. -/
theorem everyStepKeepsTheInvariant : Obligations.EveryStepKeepsTheInvariant := fun _ _ h run => h.of_step run

/-- Settles O36: what is presented is no part of the block, so the invariant holds with it. -/
theorem everyStepCompletes : Obligations.EveryStepCompletes := by
  intro s p h
  have presented : Inv (present p s) := h.congr rfl
  exact ⟨h.step_completes, presented.step_completes⟩

end Sys2Proof.Machine
end

section
/-! # Frames: what each operation leaves unchanged (spec 10_state.md section 1), and where a meaning is refused. -/

namespace Sys2Proof.Machine

variable {s t : State} {i : Instr}

/-- Who writes what, said once for all operations: each field of the state is as it was but after the operations named. -/
structure ExecFrame (i : Instr) (s t : State) : Prop where
  st : i.mnemonic ∈ ["S1.MISS", "BUF.APP", "CK.CLEAR", "CK.ABSORB", "LE32S", "LE16S", "DECODE", "STAT.CHECK", "IDLE"] →
    t.st = s.st
  pl : i.mnemonic ∉ ["TY.SAMPLE", "BUF.APP", "BUF.LAST", "RESET"] → t.pl = s.pl
  sums : i.mnemonic ∉ ["TY.SAMPLE", "BUF.APP", "BUF.LAST", "CK.CLEAR", "CK.ABSORB", "RESET"] →
    t.ckA = s.ckA ∧ t.ckB = s.ckB
  counters : i.mnemonic ∉ ["TY.SAMPLE", "CA.MISM", "CB.MATCH", "CB.MISM", "STAT.CHECK", "RESET"] →
    t.totalCnt = s.totalCnt ∧ t.goodCnt = s.goodCnt
  events : i.mnemonic ∉ ["TY.UNK", "CA.MISM", "CB.MATCH", "CB.MISM", "STAT.CHECK"] → t.events = s.events
  result : i.mnemonic ∉ ["LE32S", "LE16S", "DECODE"] → t.result = s.result
  draws : i.mnemonic ∉ ["TY.SAMPLE", "CB.MATCH"] → t.draws = s.draws
  inputs : t.inputs = s.inputs

/-- Every operation is framed: by its one successor, field by field. -/
theorem execFrame (h : exec i s = .next t) : ExecFrame i s t := by
  cases i
  case s1Hit => obtain ⟨-, rfl⟩ := exec_s1Hit_next.1 h; constructor <;> simp [Instr.mnemonic]
  case s1Miss => obtain ⟨-, rfl⟩ := exec_s1Miss_next.1 h; constructor <;> simp
  case s2Hit => obtain ⟨-, rfl⟩ := exec_s2Hit_next.1 h; constructor <;> simp [Instr.mnemonic]
  case s2Miss => obtain ⟨-, rfl⟩ := exec_s2Miss_next.1 h; constructor <;> simp [Instr.mnemonic]
  case tySample => obtain ⟨-, rfl⟩ := exec_tySample_next.1 h; constructor <;> simp [Instr.mnemonic]
  case tyUnk => obtain ⟨-, rfl⟩ := exec_tyUnk_next.1 h; constructor <;> simp [Instr.mnemonic]
  case bufApp => obtain ⟨-, rfl⟩ := exec_bufApp_next.1 h; constructor <;> simp [Instr.mnemonic]
  case bufLast => obtain ⟨-, rfl⟩ := exec_bufLast_next.1 h; constructor <;> simp [Instr.mnemonic]
  case caMatch => obtain ⟨-, rfl⟩ := exec_caMatch_next.1 h; constructor <;> simp [Instr.mnemonic]
  case caMism => obtain ⟨-, rfl⟩ := exec_caMism_next.1 h; constructor <;> simp [Instr.mnemonic]
  case cbMatch => obtain ⟨-, p, -, rfl⟩ := exec_cbMatch_next.1 h; constructor <;> simp [Instr.mnemonic]
  case cbMism => obtain ⟨-, rfl⟩ := exec_cbMism_next.1 h; constructor <;> simp [Instr.mnemonic]
  case ckClear => rw [exec_ckClear_next.1 h]; constructor <;> simp [Instr.mnemonic]
  case ckAbsorb => rw [exec_ckAbsorb_next.1 h]; constructor <;> simp [Instr.mnemonic]
  case le32s => obtain ⟨-, rfl⟩ := exec_le32s_next.1 h; constructor <;> simp [Instr.mnemonic]
  case le16s => obtain ⟨-, rfl⟩ := exec_le16s_next.1 h; constructor <;> simp [Instr.mnemonic]
  case decode => rw [exec_decode_next.1 h]; constructor <;> simp [Instr.mnemonic]
  case statCheck => rw [exec_statCheck_next.1 h]; constructor <;> simp [Instr.mnemonic]
  case reset => rw [exec_reset_next.1 h]; constructor <;> simp [Instr.mnemonic]
  case idle => rw [exec_idle_next.1 h]; constructor <;> simp

/-! ## The frame statements -/

/-- An append in the state is an append to the buffer: it stores at its address and nowhere else. -/
theorem append_frame (v : Byte) (pl : t.pl = s.pl.append v) (room : s.pl.len + 1 ≤ params.payloadLen) :
    t.pl.len = s.pl.len + 1 ∧ (∀ a, a ≠ appendAddress s → t.pl.read a = s.pl.read a) ∧
      (s.pl.wf → t.pl.read (appendAddress s) = some v) := by
  rw [pl]
  exact ⟨Memory.len_append .., fun a ha => Memory.read_append_of_ne v ha, fun wf => Memory.read_append_self wf room v⟩

/-- Settles O29: the frame for the sixteen others, and the buffer each of the four leaves. -/
theorem onlyFourOperationsWriteTheBuffer : Obligations.OnlyFourOperationsWriteTheBuffer := by
  intro i s t h
  refine ⟨fun name => ?_, ?_, ?_, ?_⟩
  · rw [(execFrame h).pl name]; exact ⟨rfl, fun _ => rfl⟩
  · rintro v (rfl | rfl)
    · obtain ⟨⟨-, room⟩, rfl⟩ := exec_bufApp_next.1 h
      exact append_frame v rfl room.le
    · obtain ⟨⟨-, last⟩, rfl⟩ := exec_bufLast_next.1 h
      exact append_frame v rfl last.le
  · rintro rfl
    obtain ⟨-, rfl⟩ := exec_tySample_next.1 h
    refine ⟨rfl, rfl, fun a ha => ?_⟩
    exact Memory.read_append_of_ne (m := []) params.typeSample ha
  · rintro rfl
    rw [exec_reset_next.1 h]
    exact ⟨rfl, fun _ => rfl⟩

/-- Settles O30: a field of the frame. -/
theorem onlyTheEngineWritesTheAccumulators : Obligations.OnlyTheEngineWritesTheAccumulators :=
  fun _ _ _ h name => (execFrame h).sums name

/-- STAT.CHECK leaves the counters as they are, or clears both at the threshold. -/
theorem statCheckOp_counters (g : Counter) (s : State) :
    (statCheckOp g s).totalCnt = s.totalCnt ∧ (statCheckOp g s).goodCnt = s.goodCnt ∨
      s.totalCnt.toNat = params.statsThreshold ∧ (statCheckOp g s).totalCnt = 0 ∧ (statCheckOp g s).goodCnt = 0 := by
  rcases statCheckOp_cases g s with ⟨due, e⟩ | ⟨-, e⟩
  · rw [e]; exact .inr ⟨due, rfl, rfl⟩
  · rw [e]; exact .inl ⟨rfl, rfl⟩

/-- The four operations that end in STAT.CHECK, run on a state with the same total; CB.MATCH alone has another good count. -/
theorem ends_in_statCheckOp (name : i.mnemonic ∈ ["CA.MISM", "CB.MATCH", "CB.MISM", "STAT.CHECK"])
    (h : exec i s = .next t) : ∃ g u, t = statCheckOp g u ∧ u.totalCnt = s.totalCnt ∧
      (i.mnemonic ≠ "CB.MATCH" → u.goodCnt = s.goodCnt) := by
  cases i <;> simp [Instr.mnemonic] at name
  case caMism => exact ⟨_, _, (exec_caMism_next.1 h).2, rfl, fun _ => rfl⟩
  case cbMatch =>
    obtain ⟨-, p, -, rfl⟩ := exec_cbMatch_next.1 h
    exact ⟨_, _, rfl, rfl, fun n => absurd rfl n⟩
  case cbMism => exact ⟨_, _, (exec_cbMism_next.1 h).2, rfl, fun _ => rfl⟩
  case statCheck => exact ⟨_, _, exec_statCheck_next.1 h, rfl, fun _ => rfl⟩

/-- Settles O31: the frame for the others, and the two outcomes of STAT.CHECK for those that end in it. -/
theorem onlyAttemptsAndTheirEndsWriteTheCounters : Obligations.OnlyAttemptsAndTheirEndsWriteTheCounters := by
  intro i s t h
  refine ⟨(execFrame h).counters, ?_, fun name => ?_, fun name => ?_⟩
  · rintro rfl
    rw [(exec_tySample_next.1 h).2]
  · obtain ⟨g, u, rfl, total, -⟩ := ends_in_statCheckOp name h
    rw [← total]
    exact (statCheckOp_counters g u).imp_left And.left
  · have ends : i.mnemonic ∈ ["CA.MISM", "CB.MATCH", "CB.MISM", "STAT.CHECK"] := by simp at name ⊢; tauto
    have not_match : i.mnemonic ≠ "CB.MATCH" := by rintro e; rw [e] at name; simp at name
    obtain ⟨g, u, rfl, -, good⟩ := ends_in_statCheckOp ends h
    rw [← good not_match]
    rcases statCheckOp_counters g u with ⟨-, same⟩ | ⟨-, cleared, -⟩
    · exact .inl same
    · exact .inr cleared

/-- Settles O32: the frame's other fields. -/
theorem sequencingEventsAndOwnFieldsAreFramed : Obligations.SequencingEventsAndOwnFieldsAreFramed :=
  fun _ _ _ h => ⟨(execFrame h).st, (execFrame h).events, (execFrame h).result, (execFrame h).draws, (execFrame h).inputs⟩

/-- Settles O37: the operations that write the buffer leave one or no byte in it, or append where there is room. -/
theorem bufferFormIsKept : Obligations.BufferFormIsKept := by
  intro i s t wf h
  by_cases name : i.mnemonic ∈ ["TY.SAMPLE", "BUF.APP", "BUF.LAST", "RESET"]
  · cases i <;> simp [Instr.mnemonic] at name
    case tySample =>
      obtain ⟨-, rfl⟩ := exec_tySample_next.1 h
      exact Memory.wf_append Memory.wf_nil (by decide) _
    case bufApp v =>
      obtain ⟨⟨-, room⟩, rfl⟩ := exec_bufApp_next.1 h
      exact Memory.wf_append wf room.le v
    case bufLast v =>
      obtain ⟨⟨-, last⟩, rfl⟩ := exec_bufLast_next.1 h
      exact Memory.wf_append wf last.le v
    case reset =>
      rw [exec_reset_next.1 h]
      exact Memory.wf_nil
  · rw [(execFrame h).pl name]
    exact wf

/-! ## Refusals -/

/-- A guarded meaning whose effect is a next state is refused exactly outside its operand line. -/
theorem whenSelected_next_eq_refused {u : State} {r : Refusal} {c : Config} :
    whenSelected i s (.next u) c = .refused r ↔ i.selected s.selCtx c = false ∧ r = .notSelected := by
  unfold whenSelected
  split
  · next sel => simp [sel]
  · next sel => simp [sel, eq_comm]

/-- CB.MATCH is refused outside its operand line, and on it where the buffer is no payload. -/
theorem exec_cbMatch_refused {v : Byte} {r : Refusal} : exec (.cbMatch v) s = .refused r ↔
    Instr.selected s.selCtx (.cbMatch v) = false ∧ r = .notSelected ∨
      Instr.selected s.selCtx (.cbMatch v) = true ∧ s.pl.len ≠ params.payloadLen ∧ r = .payloadLength := by
  by_cases sel : Instr.selected s.selCtx (.cbMatch v) = true
  · have run : exec (.cbMatch v) s = _ := whenSelected_of_selected sel _
    rw [run]
    by_cases len : s.pl.len = params.payloadLen
    · have sample : decodeBytes s.pl.bytes = _ := decodeBytes_eq_some.2 ⟨(Memory.length_bytes _).trans len, rfl⟩
      simp [sample, sel, len]
    · have none : decodeBytes s.pl.bytes = none := decodeBytes_eq_none.2 (by rwa [Memory.length_bytes])
      simp only [none, Host.Outcome.refused.injEq]
      rw [eq_comm (a := Refusal.payloadLength)]
      simp [sel, show ¬ s.pl.len = 11 from len]
  · have off : Instr.selected s.selCtx (.cbMatch v) = false := by simpa using sel
    have run : exec (.cbMatch v) s = _ := whenSelected_of_not_selected off _
    rw [run]
    simp [off, eq_comm]

theorem exec_le32s_refused {p : List Byte} {k : Nat} {r : Refusal} :
    exec (.le32s p k) s = .refused r ↔ p.length < k + 4 ∧ r = .fieldOutOfRange := by
  by_cases h : k + 4 ≤ p.length
  · rw [exec_le32s_next.2 ⟨h, rfl⟩]; simp [h]
  · have outside : le32s p k = none := by simp [le32s, fieldBytes, h]
    have run : exec (.le32s p k) s = .refused .fieldOutOfRange := by simp [exec, execLe32s, outside]
    rw [run]; simp [Nat.lt_of_not_le h, eq_comm]

theorem exec_le16s_refused {p : List Byte} {k : Nat} {r : Refusal} :
    exec (.le16s p k) s = .refused r ↔ p.length < k + 2 ∧ r = .fieldOutOfRange := by
  by_cases h : k + 2 ≤ p.length
  · rw [exec_le16s_next.2 ⟨h, rfl⟩]; simp [h]
  · have outside : le16s p k = none := by simp [le16s, fieldBytes, h]
    have run : exec (.le16s p k) s = .refused .fieldOutOfRange := by simp [exec, execLe16s, outside]
    rw [run]; simp [Nat.lt_of_not_le h, eq_comm]

/-- Settles O33: eleven transitions are guarded effects; CB.MATCH, LE32S and LE16S have their own refusals; the rest always
answer. -/
theorem meaningsStopOnlyWhereNoRuleApplies : Obligations.MeaningsStopOnlyWhereNoRuleApplies := by
  intro i s r
  cases i with
  | cbMatch v => rw [exec_cbMatch_refused]; simp [Instr.mnemonic]
  | le32s p k => rw [exec_le32s_refused]; simp [Instr.mnemonic]
  | le16s p k => rw [exec_le16s_refused]; simp [Instr.mnemonic]
  | ckClear => rw [exec_ckClear_next.2 rfl]; simp [Instr.mnemonic]
  | ckAbsorb v => rw [exec_ckAbsorb_next.2 rfl]; simp [Instr.mnemonic]
  | decode p => rw [exec_decode_next.2 rfl]; simp [Instr.mnemonic]
  | statCheck g => rw [exec_statCheck_next.2 rfl]; simp [Instr.mnemonic]
  | reset => rw [exec_reset_next.2 rfl]; simp [Instr.mnemonic]
  | idle => rw [exec_idle_next.2 rfl]; simp [Instr.mnemonic]
  | _ =>
    refine Iff.trans whenSelected_next_eq_refused ?_
    simp [Instr.mnemonic]

end Sys2Proof.Machine
end

section
/-! # The step on what is presented, the remaining transitions by themselves and as a step, and the threshold test (spec
42_frame_synchronizer.md, 43_statistics.md, 70_reset_and_hazards.md). -/

namespace Sys2Proof.Machine

variable {s : State}

/-! ## The step and the two items without a byte -/

theorem nextItem_of_inputs {p : Pins} {rest : List Pins} (h : s.inputs = p :: rest) : s.nextItem = p.item := by
  rw [State.nextItem, State.nextPins, h]

theorem beginStep_of_inputs {p : Pins} {rest : List Pins} (h : s.inputs = p :: rest) :
    beginStep s = { s with inputs := rest, events := [], result := none } := by
  rw [beginStep, h, List.tail_cons]

/-- Settles O6: the item the pins present is the one the step decodes. -/
theorem stepRunsTheSelectedOperation : Obligations.StepRunsTheSelectedOperation := by
  refine ⟨fun s p rest i h dec => ?_, fun s h => ?_, fun s p rest e h dec => ?_, fun s w i _ dec => ?_⟩
  · rw [step_of_decode (by rw [nextItem_of_inputs h]; exact dec), beginStep_of_inputs h]
  · rw [step_of_decode (i := .idle) (by rw [nextItem_of_no_inputs h]; rfl), exec_idle_next.2 rfl, beginStep, h]
    rfl
  · exact step_of_reject (by rw [nextItem_of_inputs h]; exact dec)
  · exact step_present (p := bytePins w) (by rw [bytePins, item_pins]; exact dec)

/-- Settles O7: the fields of `State.reset`. -/
theorem resetStateIsAsSpecified : Obligations.ResetStateIsAsSpecified := ⟨rfl, rfl, rfl, rfl, rfl⟩

/-- Settles O8: `rst` wins over the other pins, and RESET does not read the state. -/
theorem resetFromEveryState : Obligations.ResetFromEveryState := by
  refine ⟨fun s => exec_reset_next.2 rfl, fun s valid v => ?_⟩
  have run := step_present (s := s) (p := ⟨true, valid, v⟩) (i := .reset) rfl
  exact ⟨_, run.trans (exec_reset_next.2 rfl), rfl, rfl, rfl⟩

/-- Settles O9: with neither pin asserted the item is Idle, whatever the byte. -/
theorem idleChangesNothing : Obligations.IdleChangesNothing := by
  refine ⟨fun s => exec_idle_next.2 rfl, fun s v => ?_⟩
  have run := step_present (s := s) (p := ⟨false, false, v⟩) (i := .idle) rfl
  exact ⟨_, run.trans (exec_idle_next.2 rfl), rfl, rfl, rfl⟩

/-! ## Transitions without a threshold test -/

/-- Settles O13: in SEEK2 any other byte selects S2.MISS, whose only effect is `st`. -/
theorem missedSecondSyncByteGoesToSeek1 : Obligations.MissedSecondSyncByteGoesToSeek1 := by
  intro s v hs hv
  exact ⟨exec_s2Miss_next.2 ⟨⟨hs, hv⟩, rfl⟩,
    step_present_byte_next (decodes_s2Miss hs hv) (exec_s2Miss_next.2 ⟨⟨hs, hv⟩, rfl⟩)⟩

/-- At 255 the count plus one does not fit, and a free value is drawn. -/
theorem drawsAfterInc_of_full {n : Counter} (full : n.toNat = 255) (d : Nat) : drawsAfterInc n d = d + 1 := by
  have misfit : ¬ incFits n = true := by rw [incFits_iff]; omega
  exact if_neg misfit

/-- Settles O15: the new count is the free value of the present draw. -/
theorem sampleTypeRunsAtAFullCount : Obligations.SampleTypeRunsAtAFullCount := by
  intro s hs full
  have draws := drawsAfterInc_of_full full s.draws
  refine ⟨incCounter s.totalCnt s.draws, ?_, ?_⟩
  · rw [← draws]; exact exec_tySample_next.2 ⟨hs, rfl⟩
  · rw [← draws]; exact step_present_byte_next (decodes_tySample hs) (exec_tySample_next.2 ⟨hs, rfl⟩)

/-- Settles O16: in TYPE any other byte selects TY.UNK, which emits it and returns to SEEK1. -/
theorem otherTypeIsReportedAndDropped : Obligations.OtherTypeIsReportedAndDropped := by
  intro s v hs hv
  exact ⟨exec_tyUnk_next.2 ⟨⟨hs, hv⟩, rfl⟩,
    step_present_byte_next (decodes_tyUnk hs hv) (exec_tyUnk_next.2 ⟨⟨hs, hv⟩, rfl⟩)⟩

/-! ## Transitions that end in the threshold test -/

theorem exec_caMism_below {v : Byte} (hs : s.st = .checkA) (hv : v ≠ s.ckA)
    (below : s.totalCnt.toNat ≠ params.statsThreshold) : exec (.caMism v) s = .next { s with st := .seek1 } :=
  exec_caMism_next.2 ⟨⟨hs, hv⟩, (statCheckOp_below (s := goto .seek1 s) below).symm⟩

theorem exec_caMism_due {v : Byte} (hs : s.st = .checkA) (hv : v ≠ s.ckA)
    (due : s.totalCnt.toNat = params.statsThreshold) : exec (.caMism v) s = .next { s with
      st := .seek1, totalCnt := 0, goodCnt := 0, events := s.events ++ [.statsReport s.goodCnt s.totalCnt] } :=
  exec_caMism_next.2 ⟨⟨hs, hv⟩, (statCheckOp_at (s := goto .seek1 s) due).symm⟩

/-- Settles O20: CA.MISM is the return to SEEK1 and then STAT.CHECK, which has the two outcomes. -/
theorem mismatchedChecksumARejects : Obligations.MismatchedChecksumARejects := by
  intro s v hs hv
  have selects := decodes_caMism hs hv
  exact ⟨fun below => ⟨exec_caMism_below hs hv below,
      step_present_byte_next selects (exec_caMism_below (by exact hs) hv below)⟩,
    fun due => ⟨exec_caMism_due hs hv due, step_present_byte_next selects (exec_caMism_due (by exact hs) hv due)⟩⟩

theorem exec_cbMism_below {v : Byte} (hs : s.st = .checkB) (hv : v ≠ s.ckB)
    (below : s.totalCnt.toNat ≠ params.statsThreshold) : exec (.cbMism v) s = .next { s with st := .seek1 } :=
  exec_cbMism_next.2 ⟨⟨hs, hv⟩, (statCheckOp_below (s := goto .seek1 s) below).symm⟩

theorem exec_cbMism_due {v : Byte} (hs : s.st = .checkB) (hv : v ≠ s.ckB)
    (due : s.totalCnt.toNat = params.statsThreshold) : exec (.cbMism v) s = .next { s with
      st := .seek1, totalCnt := 0, goodCnt := 0, events := s.events ++ [.statsReport s.goodCnt s.totalCnt] } :=
  exec_cbMism_next.2 ⟨⟨hs, hv⟩, (statCheckOp_at (s := goto .seek1 s) due).symm⟩

/-- Settles O22: CB.MISM is the return to SEEK1 and then STAT.CHECK, which has the two outcomes. -/
theorem mismatchedChecksumBRejects : Obligations.MismatchedChecksumBRejects := by
  intro s v hs hv
  have selects := decodes_cbMism hs hv
  exact ⟨fun below => ⟨exec_cbMism_below hs hv below,
      step_present_byte_next selects (exec_cbMism_below (by exact hs) hv below)⟩,
    fun due => ⟨exec_cbMism_due hs hv due, step_present_byte_next selects (exec_cbMism_due (by exact hs) hv due)⟩⟩

/-- CB.MATCH on a complete payload below the threshold. -/
theorem exec_cbMatch_below {p : Payload} (hs : s.st = .checkB) (hp : s.pl.bytes = payloadBytes p)
    (below : s.totalCnt.toNat ≠ params.statsThreshold) : exec (.cbMatch s.ckB) s = .next { s with
      st := .seek1, goodCnt := incCounter s.goodCnt s.draws, draws := drawsAfterInc s.goodCnt s.draws,
      events := s.events ++ [.sample (decodePayload p)] } :=
  exec_cbMatch_next.2 ⟨⟨hs, rfl⟩, p, hp,
    (statCheckOp_below (s := goto .seek1 (emit (.sample (decodePayload p)) (bumpGood s))) below).symm⟩

/-- CB.MATCH on a complete payload at the threshold: the report follows the Sample. -/
theorem exec_cbMatch_due {p : Payload} (hs : s.st = .checkB) (hp : s.pl.bytes = payloadBytes p)
    (due : s.totalCnt.toNat = params.statsThreshold) : exec (.cbMatch s.ckB) s = .next { s with
      st := .seek1, totalCnt := 0, goodCnt := 0, draws := drawsAfterInc s.goodCnt s.draws,
      events := s.events ++
        [.sample (decodePayload p), .statsReport (incCounter s.goodCnt s.draws) s.totalCnt] } := by
  refine exec_cbMatch_next.2 ⟨⟨hs, rfl⟩, p, hp, ?_⟩
  rw [statCheckOp_at (s := goto .seek1 (emit (.sample (decodePayload p)) (bumpGood s))) due]
  simp [goto, emit, bumpGood]

/-- Settles O21: the new good count is the count plus one where that fits, and free where it does not. -/
theorem matchingChecksumBEmitsTheSample : Obligations.MatchingChecksumBEmitsTheSample := by
  intro s p hs hp
  refine ⟨incCounter s.goodCnt s.draws, drawsAfterInc s.goodCnt s.draws, fun fits => ?_, fun below => ⟨?_, ?_⟩,
    fun due => ⟨?_, ?_⟩⟩
  · exact ⟨incCounter_of_fits fits _, drawsAfterInc_of_fits fits _⟩
  · exact exec_cbMatch_below hs hp below
  · exact step_present_byte_next (decodes_cbMatch hs) (exec_cbMatch_below (by exact hs) hp below)
  · exact exec_cbMatch_due hs hp due
  · exact step_present_byte_next (decodes_cbMatch hs) (exec_cbMatch_due (by exact hs) hp due)

/-- Settles O28: the two outcomes of STAT.CHECK. -/
theorem thresholdReportsAndClears : Obligations.ThresholdReportsAndClears := by
  intro s g
  exact ⟨fun due => exec_statCheck_next.2 (statCheckOp_at due).symm,
    fun below => exec_statCheck_next.2 (statCheckOp_below below).symm⟩

end Sys2Proof.Machine
end

section
/-! # The frame decoder (spec 41_frame_decoder.md): its fields as signed values and as bit patterns, and that it inverts the
frame builder. -/

namespace Sys2Proof.Machine

/-! ## Fields of a sequence -/

theorem slice_succ {p : List Byte} {k n : Nat} {b : Byte} (h : p[k]? = some b) :
    slice p k (n + 1) = b :: slice p (k + 1) n := by
  obtain ⟨lt, rfl⟩ := List.getElem?_eq_some_iff.1 h
  rw [slice, List.drop_eq_getElem_cons lt, List.take_succ_cons, slice]

theorem slice_zero (p : List Byte) (k : Nat) : slice p k 0 = [] := rfl

/-! ## The bit pattern of a field -/

/-- A field with one more byte below it is its bit pattern with that byte joined on the right. -/
theorem ofNat_leNat_cons (w : Nat) (b : Byte) (bs : List Byte) :
    BitVec.ofNat (w + 8) (leNat (b :: bs)) = BitVec.ofNat w (leNat bs) ++ b := by
  have low : (b.toNat + 256 * leNat bs) % 256 = b.toNat := by have := b.isLt; omega
  have high : (b.toNat + 256 * leNat bs) / 256 = leNat bs := by have := b.isLt; omega
  apply BitVec.eq_of_toNat_eq
  calc (BitVec.ofNat (w + 8) (leNat (b :: bs))).toNat
      = (b.toNat + 256 * leNat bs) % (256 * 2 ^ w) := by
        rw [BitVec.toNat_ofNat, leNat, pow_add, mul_comm (2 ^ w), show 2 ^ 8 = 256 from rfl]
    _ = b.toNat + 256 * (leNat bs % 2 ^ w) := by rw [Nat.mod_mul, low, high]
    _ = (BitVec.ofNat w (leNat bs) ++ b).toNat := by
        rw [BitVec.toNat_append, ← Nat.shiftLeft_add_eq_or_of_lt b.isLt, BitVec.toNat_ofNat, Nat.shiftLeft_eq]
        omega

/-- A field's bytes are its bit pattern, most significant byte on the left (spec R132). -/
theorem signedField_eq_append (b0 b1 b2 b3 : Byte) : signedField 32 [b0, b1, b2, b3] = b3 ++ b2 ++ b1 ++ b0 := by
  have last : BitVec.ofNat 8 (leNat [b3]) = b3 := by simp [leNat]
  rw [signedField_eq, ofNat_leNat_cons 24, ofNat_leNat_cons 16, ofNat_leNat_cons 8, last]

theorem signedField_eq_append₂ (b0 b1 : Byte) : signedField 16 [b0, b1] = b1 ++ b0 := by
  have last : BitVec.ofNat 8 (leNat [b1]) = b1 := by simp [leNat]
  rw [signedField_eq, ofNat_leNat_cons 8, last]

/-- The signed value of four bytes (spec R9, R121). -/
theorem toInt_signedField_four (b0 b1 b2 b3 : Byte) : (signedField 32 [b0, b1, b2, b3]).toInt =
    sext 32 (b0.toNat + 256 * b1.toNat + 65536 * b2.toNat + 16777216 * b3.toNat) := by
  have fits : leNat [b0, b1, b2, b3] < 2 ^ 32 := (leNat_lt _).trans_eq (by norm_num)
  rw [toInt_signedField (by decide) fits]
  congr 1
  simp only [leNat]
  omega

/-- The signed value of two bytes (spec R9, R122). -/
theorem toInt_signedField_two (b0 b1 : Byte) :
    (signedField 16 [b0, b1]).toInt = sext 16 (b0.toNat + 256 * b1.toNat) := by
  have fits : leNat [b0, b1] < 2 ^ 16 := (leNat_lt _).trans_eq (by norm_num)
  rw [toInt_signedField (by decide) fits]
  rfl

/-- Settles O25: the slice is the four bytes. -/
theorem le32sReadsASignedField : Obligations.Le32sReadsASignedField := by
  intro s p k b0 b1 b2 b3 h0 h1 h2 h3
  have inside : k + 4 ≤ p.length := (List.getElem?_eq_some_iff.1 h3).1
  have field : slice p k 4 = [b0, b1, b2, b3] := by
    rw [slice_succ h0, slice_succ h1, slice_succ h2, slice_succ h3, slice_zero]
  exact ⟨_, exec_le32s_next.2 ⟨inside, rfl⟩, by rw [field]; exact toInt_signedField_four ..⟩

/-- Settles O26: the slice is the two bytes. -/
theorem le16sReadsASignedField : Obligations.Le16sReadsASignedField := by
  intro s p k b0 b1 h0 h1
  have inside : k + 2 ≤ p.length := (List.getElem?_eq_some_iff.1 h1).1
  have field : slice p k 2 = [b0, b1] := by rw [slice_succ h0, slice_succ h1, slice_zero]
  exact ⟨_, exec_le16s_next.2 ⟨inside, rfl⟩, by rw [field]; exact toInt_signedField_two ..⟩

/-- Settles O27: the three fields of the eleven bytes. -/
theorem decodeExtractsTheThreeFields : Obligations.DecodeExtractsTheThreeFields := by
  intro s p b0 b1 b2 b3 b4 b5 b6 b7 b8 b9 b10 hp
  have fields : decodePayload p =
      ⟨signedField 32 [b1, b2, b3, b4], signedField 32 [b5, b6, b7, b8], signedField 16 [b9, b10]⟩ := by
    rw [decodePayload, hp, sampleFields_eq]
  refine ⟨decodePayload p, exec_decode_next.2 rfl, ?_⟩
  rw [fields]
  exact ⟨toInt_signedField_four .., toInt_signedField_four .., toInt_signedField_two ..,
    signedField_eq_append .., signedField_eq_append .., signedField_eq_append₂ ..⟩

/-! ## Decode and Encode are inverse -/

@[simp] theorem toNat_byteAt (n i : Nat) : (byteAt n i).toNat = n / 256 ^ i % 256 := by simp [byteAt]

/-- The field of a number's four bytes is the number. -/
theorem signedField_byteAt_four (x : BitVec 32) :
    signedField 32 [byteAt x.toNat 0, byteAt x.toNat 1, byteAt x.toNat 2, byteAt x.toNat 3] = x := by
  have lt := x.isLt
  apply BitVec.eq_of_toNat_eq
  simp only [signedField_eq, BitVec.toNat_ofNat, leNat, toNat_byteAt]
  omega

theorem signedField_byteAt_two (x : BitVec 16) : signedField 16 [byteAt x.toNat 0, byteAt x.toNat 1] = x := by
  have lt := x.isLt
  apply BitVec.eq_of_toNat_eq
  simp only [signedField_eq, BitVec.toNat_ofNat, leNat, toNat_byteAt]
  omega

/-- The four bytes of a field's number are the field's bytes. -/
theorem byteAt_signedField_four (b0 b1 b2 b3 : Byte) :
    [byteAt (signedField 32 [b0, b1, b2, b3]).toNat 0, byteAt (signedField 32 [b0, b1, b2, b3]).toNat 1,
      byteAt (signedField 32 [b0, b1, b2, b3]).toNat 2, byteAt (signedField 32 [b0, b1, b2, b3]).toNat 3] =
      [b0, b1, b2, b3] := by
  have h0 := b0.isLt
  have h1 := b1.isLt
  have h2 := b2.isLt
  have h3 := b3.isLt
  simp only [List.cons.injEq, and_true, ← BitVec.toNat_inj, signedField_eq, BitVec.toNat_ofNat, leNat, toNat_byteAt]
  omega

theorem byteAt_signedField_two (b0 b1 : Byte) :
    [byteAt (signedField 16 [b0, b1]).toNat 0, byteAt (signedField 16 [b0, b1]).toNat 1] = [b0, b1] := by
  have h0 := b0.isLt
  have h1 := b1.isLt
  simp only [List.cons.injEq, and_true, ← BitVec.toNat_inj, signedField_eq, BitVec.toNat_ofNat, leNat, toNat_byteAt]
  omega

theorem decodePayload_payloadFor (x : Sample) : decodePayload (payloadFor x) = x := by
  rw [decodePayload, payloadBytes_payloadFor, sampleFields_eq, signedField_byteAt_four, signedField_byteAt_four,
    signedField_byteAt_two]

/-- A payload of the SAMPLE type is the one built for its Sample. -/
theorem payloadFor_decodePayload {p : Payload} (typed : (payloadBytes p).head? = some params.typeSample) :
    payloadFor (decodePayload p) = p := by
  obtain ⟨b0, b1, b2, b3, b4, b5, b6, b7, b8, b9, b10, hp⟩ := payloadBytes_cases p
  have first : b0 = params.typeSample := by simpa [hp] using typed
  have load := byteAt_signedField_four b1 b2 b3 b4
  have steps := byteAt_signedField_four b5 b6 b7 b8
  have disp := byteAt_signedField_two b9 b10
  simp only [List.cons.injEq, and_true] at load steps disp
  apply payloadBytes_injective
  rw [payloadBytes_payloadFor, decodePayload, hp, sampleFields_eq]
  simp only [load, steps, disp, first]

/-- The fields stand behind byte 0 (spec R126). -/
theorem sampleFields_cons (b : Byte) (bs : List Byte) : sampleFields (b :: bs) =
    ⟨signedField 32 (slice bs 0 4), signedField 32 (slice bs 4 4), signedField 16 (slice bs 8 2)⟩ := rfl

theorem decodePayload_eq_of_tail {p q : Payload} (h : (payloadBytes p).tail = (payloadBytes q).tail) :
    decodePayload p = decodePayload q := by
  obtain ⟨a0, a1, a2, a3, a4, a5, a6, a7, a8, a9, a10, hp⟩ := payloadBytes_cases p
  obtain ⟨b0, b1, b2, b3, b4, b5, b6, b7, b8, b9, b10, hq⟩ := payloadBytes_cases q
  rw [hp, hq, List.tail_cons, List.tail_cons] at h
  rw [decodePayload, decodePayload, hp, hq, sampleFields_cons, sampleFields_cons, h]

/-- Settles O42: field by field, and the frame is the payload between four bytes. -/
theorem decodeIsABijectionOnSamplePayloads : Obligations.DecodeIsABijectionOnSamplePayloads := by
  refine ⟨decodePayload_payloadFor, fun p => payloadFor_decodePayload, fun p q => decodePayload_eq_of_tail,
    fun x => ⟨length_encodeSample x, ?_⟩⟩
  rw [encodeSample_eq, payloadBytes_payloadFor]
  rfl

end Sys2Proof.Machine
end

section
/-! # The checksum (spec 40_checksum_engine.md sections 1 and 3): its closed form, and which changes it shows. -/

namespace Sys2Proof.Machine

/-! ## The closed form -/

theorem toNat_checksum_fst (bs : List Byte) : (checksum bs).1.toNat = (bs.map (·.toNat)).sum % 256 := by
  induction bs with
  | nil => rfl
  | cons b bs ih =>
    rw [checksum_cons, BitVec.toNat_add, ih, List.map_cons, List.sum_cons]
    omega

/-- The weighted sum of a longer sequence gives each byte behind the first the weight it had. -/
theorem weighted_sum_cons (b : Byte) (bs : List Byte) :
    ((b :: bs).zipIdx.map fun e => ((b :: bs).length - e.2) * e.1.toNat).sum =
      (bs.length + 1) * b.toNat + (bs.zipIdx.map fun e => (bs.length - e.2) * e.1.toNat).sum := by
  simp [List.zipIdx_succ, Function.comp_def]

theorem toNat_checksum_snd (bs : List Byte) :
    (checksum bs).2.toNat = (bs.zipIdx.map fun e => (bs.length - e.2) * e.1.toNat).sum % 256 := by
  induction bs with
  | nil => rfl
  | cons b bs ih =>
    rw [weighted_sum_cons, checksum_cons, BitVec.toNat_add, ih, BitVec.toNat_mul, BitVec.toNat_ofNat]
    simp [Nat.add_mod, Nat.mul_mod]

/-- Settles O39: both sums by induction over the sequence, the first byte having the largest weight. -/
theorem checksumClosedForm : Obligations.ChecksumClosedForm :=
  fun bs => ⟨toNat_checksum_fst bs, toNat_checksum_snd bs⟩

/-! ## Changes the checksum shows -/

/-- The two sums over a sequence with two bytes singled out. -/
theorem checksum_two_bytes (xs ys zs : List Byte) (u v : Byte) : checksum (xs ++ u :: ys ++ v :: zs) =
    ((checksum xs).1 + (u + (checksum ys).1) + (v + (checksum zs).1),
      (checksum xs).2 + BitVec.ofNat 8 (ys.length + 1) * (checksum xs).1 +
        (BitVec.ofNat 8 (ys.length + 1) * u + (checksum ys).2) +
        BitVec.ofNat 8 (zs.length + 1) * ((checksum xs).1 + (u + (checksum ys).1)) +
        (BitVec.ofNat 8 (zs.length + 1) * v + (checksum zs).2)) := by
  rw [checksum_concat, checksum_concat, checksum_cons, checksum_cons]
  simp only [List.length_cons]

theorem checksum_fst_exchange (xs ys zs : List Byte) (u v : Byte) :
    (checksum (xs ++ v :: ys ++ u :: zs)).1 = (checksum (xs ++ u :: ys ++ v :: zs)).1 := by
  rw [checksum_two_bytes, checksum_two_bytes]
  ring

theorem checksum_snd_exchange (xs ys zs : List Byte) (u v : Byte) :
    (checksum (xs ++ v :: ys ++ u :: zs)).2 =
      (checksum (xs ++ u :: ys ++ v :: zs)).2 + BitVec.ofNat 8 (ys.length + 1) * (v - u) := by
  rw [checksum_two_bytes, checksum_two_bytes]
  ring

/-- Settles O40: neighbours have distance 1, and their difference is not 0. -/
theorem checksumSeesExchangedNeighbours : Obligations.ChecksumSeesExchangedNeighbours := by
  refine ⟨fun xs ys zs u v => ⟨checksum_fst_exchange .., checksum_snd_exchange ..⟩, fun xs zs u v ne same => ?_⟩
  have exchange : (checksum (xs ++ v :: u :: zs)).2 = (checksum (xs ++ u :: v :: zs)).2 + BitVec.ofNat 8 1 * (v - u) := by
    simpa using checksum_snd_exchange xs [] zs u v
  rw [same] at exchange
  have zero : BitVec.ofNat 8 1 * (v - u) = 0 := left_eq_add.1 exchange
  exact ne (sub_eq_zero.1 ((one_mul _).symm.trans zero)).symm

/-- One changed byte changes the first sum. -/
theorem checksum_fst_ne_of_byte_ne {u v : Byte} (ne : u ≠ v) (xs ys : List Byte) :
    (checksum (xs ++ u :: ys)).1 ≠ (checksum (xs ++ v :: ys)).1 := by
  rw [checksum_concat, checksum_concat, checksum_cons, checksum_cons]
  simpa using ne

/-- Settles O41: the first sum is a plain sum; a byte before enters it with its value, a byte after absorbs it. -/
theorem checksumSeesOneChangedByte : Obligations.ChecksumSeesOneChangedByte := by
  refine ⟨fun xs ys u v ne => checksum_fst_ne_of_byte_ne ne xs ys, fun s => ?_, fun s => ?_⟩
  · rw [checksum_cons]; simp
  · rw [checksum_append, absorb_eq]; simp

end Sys2Proof.Machine
end

section
/-! # One step: exactly what the step of one item can do, that a step depends on its item alone of all that is listed, and
the events, ports and counters of a step (spec 10_state.md section 5, 42_frame_synchronizer.md section 3,
43_statistics.md). -/

namespace Sys2Proof.Machine

variable {s t : State} {i : Instr} {it : Item} {v : Byte}

/-! ## The step of one item -/

/-- The twelve steps of a presented byte are all steps. -/
theorem step_of_byteStep (h : ByteStep s v t) : step (feed (.byte v) s) = .next t := by
  cases h with
  | s1Hit hs hv => subst hv; rw [step_feed_byte (decodes_s1Hit hs)]; exact exec_s1Hit_next.2 ⟨hs, rfl⟩
  | s1Miss hs hv => rw [step_feed_byte (decodes_s1Miss hs hv)]; exact exec_s1Miss_next.2 ⟨⟨hs, hv⟩, rfl⟩
  | s2Hit hs hv => subst hv; rw [step_feed_byte (decodes_s2Hit hs)]; exact exec_s2Hit_next.2 ⟨hs, rfl⟩
  | s2Miss hs hv => rw [step_feed_byte (decodes_s2Miss hs hv)]; exact exec_s2Miss_next.2 ⟨⟨hs, hv⟩, rfl⟩
  | tySample hs hv => subst hv; rw [step_feed_byte (decodes_tySample hs)]; exact exec_tySample_next.2 ⟨hs, rfl⟩
  | tyUnk hs hv => rw [step_feed_byte (decodes_tyUnk hs hv)]; exact exec_tyUnk_next.2 ⟨⟨hs, hv⟩, rfl⟩
  | bufApp hs room => rw [step_feed_byte (decodes_bufApp hs room)]; exact exec_bufApp_next.2 ⟨⟨hs, room⟩, rfl⟩
  | bufLast hs last => rw [step_feed_byte (decodes_bufLast hs last)]; exact exec_bufLast_next.2 ⟨⟨hs, last⟩, rfl⟩
  | caMatch hs hv => subst hv; rw [step_feed_byte (decodes_caMatch hs)]; exact exec_caMatch_next.2 ⟨⟨hs, rfl⟩, rfl⟩
  | caMism hs hv => rw [step_feed_byte (decodes_caMism hs hv)]; exact exec_caMism_next.2 ⟨⟨hs, hv⟩, rfl⟩
  | cbMatch p hs hv hp =>
    subst hv
    rw [step_feed_byte (decodes_cbMatch hs)]
    exact exec_cbMatch_next.2 ⟨⟨hs, rfl⟩, p, hp, rfl⟩
  | cbMism hs hv => rw [step_feed_byte (decodes_cbMism hs hv)]; exact exec_cbMism_next.2 ⟨⟨hs, hv⟩, rfl⟩

/-- The step of one item. -/
inductive ItemStep (s : State) : Item → State → Prop where
  | reset : ItemStep s .reset (resetBlock s.quiet)
  | byte {v : Byte} {t : State} : ByteStep s v t → ItemStep s (.byte v) t
  | idle : ItemStep s .idle s.quiet

theorem itemStep_byte_iff : ItemStep s (.byte v) t ↔ ByteStep s v t :=
  ⟨fun h => by cases h with | byte b => exact b, .byte⟩

theorem step_feed_iff : step (feed it s) = .next t ↔ ItemStep s it t := by
  constructor
  · intro h
    cases it with
    | reset => rw [step_feed_reset] at h; cases h; exact .reset
    | byte v => exact .byte (byteStep_of_step h)
    | idle => rw [step_feed_idle] at h; cases h; exact .idle
  · intro h
    cases h with
    | reset => exact step_feed_reset
    | byte b => exact step_of_byteStep b
    | idle => exact step_feed_idle

/-! ## What is listed at the input does not matter to an operation -/

theorem statCheckOp_with_inputs (g : Counter) (s : State) (ps : List Pins) :
    statCheckOp g { s with inputs := ps } = { statCheckOp g s with inputs := ps } := by
  unfold statCheckOp; split <;> rfl

/-- An operation answers the same whatever is listed, and leaves it listed. -/
theorem exec_with_inputs (ps : List Pins) (h : exec i s = .next t) :
    exec i { s with inputs := ps } = .next { t with inputs := ps } := by
  cases i with
  | s1Hit => obtain ⟨hs, rfl⟩ := exec_s1Hit_next.1 h; exact exec_s1Hit_next.2 ⟨hs, rfl⟩
  | s1Miss => obtain ⟨hs, rfl⟩ := exec_s1Miss_next.1 h; exact exec_s1Miss_next.2 ⟨hs, rfl⟩
  | s2Hit => obtain ⟨hs, rfl⟩ := exec_s2Hit_next.1 h; exact exec_s2Hit_next.2 ⟨hs, rfl⟩
  | s2Miss => obtain ⟨hs, rfl⟩ := exec_s2Miss_next.1 h; exact exec_s2Miss_next.2 ⟨hs, rfl⟩
  | tySample => obtain ⟨hs, rfl⟩ := exec_tySample_next.1 h; exact exec_tySample_next.2 ⟨hs, rfl⟩
  | tyUnk => obtain ⟨hs, rfl⟩ := exec_tyUnk_next.1 h; exact exec_tyUnk_next.2 ⟨hs, rfl⟩
  | bufApp => obtain ⟨hs, rfl⟩ := exec_bufApp_next.1 h; exact exec_bufApp_next.2 ⟨hs, rfl⟩
  | bufLast => obtain ⟨hs, rfl⟩ := exec_bufLast_next.1 h; exact exec_bufLast_next.2 ⟨hs, rfl⟩
  | caMatch => obtain ⟨hs, rfl⟩ := exec_caMatch_next.1 h; exact exec_caMatch_next.2 ⟨hs, rfl⟩
  | caMism =>
    obtain ⟨hs, rfl⟩ := exec_caMism_next.1 h
    exact exec_caMism_next.2 ⟨hs, (statCheckOp_with_inputs ..).symm⟩
  | cbMatch =>
    obtain ⟨hs, p, hp, rfl⟩ := exec_cbMatch_next.1 h
    exact exec_cbMatch_next.2 ⟨hs, p, hp, (statCheckOp_with_inputs ..).symm⟩
  | cbMism =>
    obtain ⟨hs, rfl⟩ := exec_cbMism_next.1 h
    exact exec_cbMism_next.2 ⟨hs, (statCheckOp_with_inputs ..).symm⟩
  | ckClear => rw [exec_ckClear_next.1 h]; exact exec_ckClear_next.2 rfl
  | ckAbsorb => rw [exec_ckAbsorb_next.1 h]; exact exec_ckAbsorb_next.2 rfl
  | le32s => obtain ⟨hs, rfl⟩ := exec_le32s_next.1 h; exact exec_le32s_next.2 ⟨hs, rfl⟩
  | le16s => obtain ⟨hs, rfl⟩ := exec_le16s_next.1 h; exact exec_le16s_next.2 ⟨hs, rfl⟩
  | decode => rw [exec_decode_next.1 h]; exact exec_decode_next.2 rfl
  | statCheck =>
    rw [exec_statCheck_next.1 h]
    exact exec_statCheck_next.2 (statCheckOp_with_inputs ..).symm
  | reset => rw [exec_reset_next.1 h]; exact exec_reset_next.2 rfl
  | idle => rw [exec_idle_next.1 h]; exact exec_idle_next.2 rfl

/-- A step that answers a next state selected an operation and ran it. -/
theorem decode_of_step (h : step s = .next t) :
    ∃ i, decodeItem s.selCtx s.nextItem = .ok i ∧ exec i (beginStep s) = .next t := by
  cases dec : decodeItem s.selCtx s.nextItem with
  | error e => rw [step_of_reject dec] at h; cases h
  | ok i => exact ⟨i, rfl, by rwa [step_of_decode dec] at h⟩

/-- Every step is the step of its item, but for what is listed behind that item. -/
theorem itemStep_of_step (h : step s = .next t) : ItemStep s s.nextItem { t with inputs := [] } := by
  obtain ⟨i, dec, run⟩ := decode_of_step h
  rw [← step_feed_iff, step_feed dec]
  exact exec_with_inputs [] run

/-- The step of an item is a step wherever that item stands first at the input. -/
theorem step_of_itemStep {ps : List Pins} (h : ItemStep s it t) :
    step { s with inputs := it.pins :: ps } = .next { t with inputs := ps } := by
  obtain ⟨i, dec, run⟩ := decode_of_step (step_feed_iff.2 h)
  rw [nextItem_feed] at dec
  rw [step_of_decode (i := i) (by rw [nextItem_of_inputs rfl, item_pins]; exact dec)]
  exact exec_with_inputs ps run

/-! ## Events -/

/-- The events of an operation that ends in STAT.CHECK. -/
theorem statCheckOp_events (g : Counter) (s : State) : (statCheckOp g s).events = s.events ∨
    s.totalCnt.toNat = params.statsThreshold ∧ (statCheckOp g s).events = s.events ++ [.statsReport g s.totalCnt] := by
  rcases statCheckOp_cases g s with ⟨due, e⟩ | ⟨-, e⟩
  · rw [e]; exact .inr ⟨due, rfl⟩
  · rw [e]; exact .inl rfl

/-- The possible event lists of a step (spec R165). -/
def EventLists (s t : State) : Prop :=
  t.events = [] ∨
  (∃ v, s.st = .type ∧ t.events = [.unknownType v]) ∨
  (∃ x, s.st = .checkB ∧ t.events = [.sample x]) ∨
  (∃ x g n, s.st = .checkB ∧ n.toNat = params.statsThreshold ∧ t.events = [.sample x, .statsReport g n]) ∨
  (∃ g n, (s.st = .checkA ∨ s.st = .checkB) ∧ n.toNat = params.statsThreshold ∧ t.events = [.statsReport g n])

/-- A mismatch emits nothing, or a report. -/
theorem EventLists.of_mismatch (hs : s.st = .checkA ∨ s.st = .checkB) :
    EventLists s (statCheckOp s.goodCnt (goto .seek1 s.quiet)) := by
  rcases statCheckOp_events s.goodCnt (goto .seek1 s.quiet) with e | ⟨due, e⟩
  · exact .inl e
  · exact .inr (.inr (.inr (.inr ⟨_, _, hs, due, e⟩)))

theorem ByteStep.eventLists (h : ByteStep s v t) : EventLists s t := by
  cases h with
  | tyUnk hs _ => exact .inr (.inl ⟨_, hs, rfl⟩)
  | caMism hs _ => exact .of_mismatch (.inl hs)
  | cbMism hs _ => exact .of_mismatch (.inr hs)
  | cbMatch p hs _ _ =>
    rcases statCheckOp_events (incCounter s.goodCnt s.draws)
      (goto .seek1 (emit (.sample (decodePayload p)) (bumpGood s.quiet))) with e | ⟨due, e⟩
    · exact .inr (.inr (.inl ⟨_, hs, e⟩))
    · exact .inr (.inr (.inr (.inl ⟨_, _, _, hs, due, e⟩)))
  | _ => exact .inl rfl

theorem ItemStep.eventLists (h : ItemStep s it t) : EventLists s t := by
  cases h with
  | byte b => exact b.eventLists
  | _ => exact .inl rfl

/-- Settles O49: of the steps of an item only those of four kinds of byte emit. -/
theorem eventListsOfAStep : Obligations.EventListsOfAStep := fun _ _ h => (itemStep_of_step h).eventLists

/-- Settles O50: of each kind of event a step's list has at most one, and the unknown type stands alone. -/
theorem portsShowTheEventsOfAStep : Obligations.PortsShowTheEventsOfAStep := by
  intro s t h
  rcases eventListsOfAStep s t h with e | ⟨v, -, e⟩ | ⟨x, -, e⟩ | ⟨x, g, n, -, -, e⟩ | ⟨g, n, -, -, e⟩ <;>
    simp [State.smpPort, State.unkPort, State.statPort, State.inReady, e, eq_comm]

/-! ## Queued items -/

/-- Settles O57: each queued item is consumed by its own step. -/
theorem queuedItemsRunAsPresented : Obligations.QueuedItemsRunAsPresented := by
  intro s t items ev h
  rw [run] at h
  generalize 0 = n at h
  induction items generalizing s n ev with
  | nil => cases h; rfl
  | cons it its ih =>
    obtain ⟨u, first, t, evs, rest, e⟩ := runFrom_cons.1 h
    cases e
    have queued : Sys2Proof.core.step { s with inputs := (it :: its).map Item.pins } =
      .next { u with inputs := its.map Item.pins } := step_of_itemStep (step_feed_iff.1 first)
    simp only [List.length_cons, Host.Core.run, queued]
    exact ih _ _ _ rest

/-! ## Counters -/

/-- What a step may do to the counters (spec R185): each stays or grows by one, or both are cleared. -/
def CountersStep (s t : State) : Prop :=
  (t.totalCnt.toNat = s.totalCnt.toNat ∨ t.totalCnt.toNat = s.totalCnt.toNat + 1) ∧
      (t.goodCnt.toNat = s.goodCnt.toNat ∨ t.goodCnt.toNat = s.goodCnt.toNat + 1) ∨
    t.totalCnt = 0 ∧ t.goodCnt = 0

/-- What a report may say (spec R33 (e), (g)). -/
def ReportsBounded (t : State) : Prop :=
  ∀ g n, Event.statsReport g n ∈ t.events → n.toNat = params.statsThreshold ∧ g.toNat ≤ n.toNat

theorem CountersStep.statCheckOp {u : State} (h : CountersStep s u) (g : Counter) :
    CountersStep s (statCheckOp g u) := by
  rcases statCheckOp_counters g u with ⟨total, good⟩ | ⟨-, cleared⟩
  · rwa [CountersStep, total, good]
  · exact .inr cleared

/-- STAT.CHECK with a good count that the total bounds, where nothing was reported before. -/
theorem reportsBounded_statCheckOp {g : Counter} (le : g.toNat ≤ s.totalCnt.toNat)
    (before : ∀ g n, Event.statsReport g n ∉ s.events) : ReportsBounded (statCheckOp g s) := by
  intro g' n report
  rcases statCheckOp_events g s with e | ⟨due, e⟩
  · rw [e] at report; exact absurd report (before g' n)
  · rw [e, List.mem_append, List.mem_singleton] at report
    rcases report with report | report
    · exact absurd report (before g' n)
    · cases report; exact ⟨due, le⟩

/-- At the document's values one more attempt fits. -/
theorem Inv.totalCnt_lt (h : Inv s) (hs : s.st = .seek1 ∨ s.st = .seek2 ∨ s.st = .type) : s.totalCnt.toNat < 255 := by
  have room := h.totalSeeking hs
  rw [params_statsThreshold] at room
  omega

/-- And so does its success. -/
theorem Inv.goodCnt_lt (h : Inv s) (hs : s.st = .buffering ∨ s.st = .checkA ∨ s.st = .checkB) :
    s.goodCnt.toNat < 255 :=
  h.goodCnt_lt_of_valid params_valid rfl hs

/-- From a state of the invariant a byte moves the counters as R185 says, draws no free value, and reports within bounds. -/
theorem ByteStep.counters (h : Inv s) (b : ByteStep s v t) :
    CountersStep s t ∧ t.draws = s.draws ∧ ReportsBounded t := by
  cases b with
  | tySample hs _ =>
    have fits := h.totalCnt_lt (.inr (.inr hs))
    exact ⟨.inl ⟨.inr (toNat_incCounter fits _), .inl rfl⟩, drawsAfterInc_of_fits fits _, nofun⟩
  | tyUnk _ _ => exact ⟨.inl ⟨.inl rfl, .inl rfl⟩, rfl, fun g n report => by simp at report⟩
  | caMism _ _ =>
    have same : CountersStep s (goto .seek1 s.quiet) := .inl ⟨.inl rfl, .inl rfl⟩
    exact ⟨same.statCheckOp _, statCheckOp_draws .., reportsBounded_statCheckOp h.goodLeTotal nofun⟩
  | cbMism _ _ =>
    have same : CountersStep s (goto .seek1 s.quiet) := .inl ⟨.inl rfl, .inl rfl⟩
    exact ⟨same.statCheckOp _, statCheckOp_draws .., reportsBounded_statCheckOp h.goodLeTotal nofun⟩
  | cbMatch p hs _ _ =>
    have fits := h.goodCnt_lt (.inr (.inr hs))
    have good : (incCounter s.goodCnt s.draws).toNat = s.goodCnt.toNat + 1 := toNat_incCounter fits _
    have counted : CountersStep s (goto .seek1 (emit (.sample (decodePayload p)) (bumpGood s.quiet))) :=
      .inl ⟨.inl rfl, .inr good⟩
    refine ⟨counted.statCheckOp _, (statCheckOp_draws ..).trans (drawsAfterInc_of_fits fits _),
      reportsBounded_statCheckOp (good.trans_le (h.inFlight (.inr (.inr hs)))) fun g n => by simp⟩
  | _ => exact ⟨.inl ⟨.inl rfl, .inl rfl⟩, rfl, nofun⟩

theorem ItemStep.counters (h : Inv s) (step : ItemStep s it t) :
    CountersStep s t ∧ t.draws = s.draws ∧ ReportsBounded t := by
  cases step with
  | reset => exact ⟨.inr ⟨rfl, rfl⟩, rfl, nofun⟩
  | byte b => exact b.counters h
  | idle => exact ⟨.inl ⟨.inl rfl, .inl rfl⟩, rfl, nofun⟩

/-- Settles O38: a step is the step of its item. -/
theorem countersNeverWrap : Obligations.CountersNeverWrap := by
  intro s t h run
  have counters := (itemStep_of_step run).counters h
  exact counters

end Sys2Proof.Machine
end

section
/-! # Runs: the invariant along a run, what a run does not depend on, and how many bytes bring the machine back to SEEK1
(spec 42_frame_synchronizer.md section 3). -/

namespace Sys2Proof.Machine

variable {s t u : State} {n : Nat} {it : Item} {its : List Item} {v : Byte} {bs : List Byte}

/-! ## Building and taking apart runs -/

/-- A run over one more item is the step of that item and the rest of the run. -/
theorem runFrom_cons_iff {out : State × List (Nat × Event)} : runFrom n s (it :: its) = some out ↔
    ∃ t, ItemStep s it t ∧ ∃ u evs, runFrom (n + 1) t its = some (u, evs) ∧
      out = (u, t.events.map (fun e => (n, e)) ++ evs) := by
  simp only [runFrom_cons, step_feed_iff]

theorem runFrom_cons_of_byteStep {evs : List (Nat × Event)} (first : ByteStep s v t)
    (rest : runFrom (n + 1) t (byteItems bs) = some (u, evs)) :
    runFrom n s (byteItems (v :: bs)) = some (u, t.events.map (fun e => (n, e)) ++ evs) :=
  runFrom_cons_iff.2 ⟨t, .byte first, u, evs, rest, rfl⟩

/-- One run after the other is the run over both lists of bytes. -/
theorem runFrom_bytes_append {xs ys : List Byte} {ev₁ ev₂ : List (Nat × Event)}
    (first : runFrom n s (byteItems xs) = some (t, ev₁))
    (second : runFrom (n + xs.length) t (byteItems ys) = some (u, ev₂)) :
    runFrom n s (byteItems (xs ++ ys)) = some (u, ev₁ ++ ev₂) := by
  rw [byteItems_append]
  exact runFrom_append.2 ⟨t, ev₁, first, u, ev₂, by rwa [length_byteItems], rfl⟩

/-! ## The invariant along a run -/

theorem Inv.of_itemStep (h : Inv s) (step : ItemStep s it t) : Inv t := by
  have presented : Inv (feed it s) := h.congr rfl
  exact presented.of_step (step_feed_iff.2 step)

theorem Inv.exists_itemStep (h : Inv s) (it : Item) : ∃ t, ItemStep s it t := by
  have presented : Inv (feed it s) := h.congr rfl
  obtain ⟨t, step⟩ := presented.step_completes
  exact ⟨t, step_feed_iff.1 step⟩

theorem Inv.of_runFrom {evs : List (Nat × Event)} (h : Inv s) (run : runFrom n s its = some (t, evs)) : Inv t := by
  induction its generalizing n s evs with
  | nil => cases run; exact h.congr rfl
  | cons it its ih =>
    obtain ⟨u, first, t, evs, rest, e⟩ := runFrom_cons_iff.1 run
    cases e
    exact ih (h.of_itemStep first) rest

/-- From a state of the invariant every run completes. -/
theorem Inv.exists_runFrom (h : Inv s) (n : Nat) (its : List Item) : ∃ t evs, runFrom n s its = some (t, evs) := by
  induction its generalizing n s with
  | nil => exact ⟨_, _, rfl⟩
  | cons it its ih =>
    obtain ⟨t, first⟩ := h.exists_itemStep it
    obtain ⟨u, evs, rest⟩ := ih (h.of_itemStep first) (n + 1)
    exact ⟨u, _, runFrom_cons_iff.2 ⟨t, first, u, evs, rest, rfl⟩⟩

/-! ## What a run does not depend on -/

/-- A run depends on what the last step left behind only where it has no step of its own. -/
theorem runFrom_of_quiet {evs : List (Nat × Event)} (h : runFrom n s.quiet its = some (t, evs)) :
    ∃ t', runFrom n s its = some (t', evs) ∧ t'.block = t.block := by
  cases its with
  | nil => cases h; exact ⟨_, rfl, rfl⟩
  | cons it its => exact ⟨t, h, rfl⟩

theorem runFrom_filter_idle {evs : List (Nat × Event)} (h : runFrom n s its = some (t, evs)) (m : Nat) :
    ∃ u evs', runFrom m s (its.filter (· != .idle)) = some (u, evs') ∧ u.block = t.block ∧
      evs'.map (·.2) = evs.map (·.2) := by
  induction its generalizing n s evs m with
  | nil => cases h; exact ⟨_, _, rfl, rfl, rfl⟩
  | cons it its ih =>
    obtain ⟨s', first, t, evs, rest, e⟩ := runFrom_cons_iff.1 h
    cases e
    by_cases idle : it = .idle
    · subst idle
      cases first
      obtain ⟨u, evs', run, block, events⟩ := ih rest m
      obtain ⟨u', run', block'⟩ := runFrom_of_quiet run
      exact ⟨u', evs', run', block'.trans block, events⟩
    · obtain ⟨u, evs', run, block, events⟩ := ih rest (m + 1)
      rw [List.filter_cons_of_pos (by simpa using idle)]
      refine ⟨u, _, runFrom_cons_iff.2 ⟨s', first, u, evs', run, rfl⟩, block, ?_⟩
      simp [events]

/-- Settles O47: an idle step leaves the block as it is, and what follows does not see that it was taken. -/
theorem idleItemsMayBeRemoved : Obligations.IdleItemsMayBeRemoved := fun _ _ _ _ h => runFrom_filter_idle h 0

/-- Two states that differ at most in the counters and in what is not of the block. -/
structure SameFrame (s s' : State) : Prop where
  st : s.st = s'.st
  pl : s.pl = s'.pl
  ckA : s.ckA = s'.ckA
  ckB : s.ckB = s'.ckB

/-- A step's events without the reports, in two states. -/
def SameFrameEvents (t t' : State) : Prop :=
  ∀ n : Nat, frameEventsOf (t.events.map fun e => (n, e)) = frameEventsOf (t'.events.map fun e => (n, e))

/-- STAT.CHECK only adds a report. -/
theorem frameEventsOf_statCheckOp (g : Counter) (s : State) (n : Nat) :
    frameEventsOf ((statCheckOp g s).events.map fun e => (n, e)) = frameEventsOf (s.events.map fun e => (n, e)) := by
  rcases statCheckOp_events g s with e | ⟨-, e⟩
  · rw [e]
  · rw [e, List.map_append, frameEventsOf_append]
    exact List.append_nil _

/-- The counters enter no step's choice: two states alike but for them take the same step of a byte. -/
theorem ByteStep.sameFrame {s' : State} (same : SameFrame s s') (b : ByteStep s v t) :
    ∃ t', ByteStep s' v t' ∧ SameFrame t t' ∧ SameFrameEvents t t' := by
  obtain ⟨st, pl, ckA, ckB⟩ := same
  cases b with
  | s1Hit hs hv => exact ⟨_, .s1Hit (st ▸ hs) hv, ⟨rfl, pl, ckA, ckB⟩, fun _ => rfl⟩
  | s1Miss hs hv => exact ⟨_, .s1Miss (st ▸ hs) hv, ⟨st, pl, ckA, ckB⟩, fun _ => rfl⟩
  | s2Hit hs hv => exact ⟨_, .s2Hit (st ▸ hs) hv, ⟨rfl, pl, ckA, ckB⟩, fun _ => rfl⟩
  | s2Miss hs hv => exact ⟨_, .s2Miss (st ▸ hs) hv, ⟨rfl, pl, ckA, ckB⟩, fun _ => rfl⟩
  | tySample hs hv => exact ⟨_, .tySample (st ▸ hs) hv, ⟨rfl, rfl, rfl, rfl⟩, fun _ => rfl⟩
  | tyUnk hs hv => exact ⟨_, .tyUnk (st ▸ hs) hv, ⟨rfl, pl, ckA, ckB⟩, fun _ => rfl⟩
  | bufApp hs room =>
    exact ⟨_, .bufApp (st ▸ hs) (pl ▸ room), ⟨st, by simp [pl], by simp [ckA], by simp [ckA, ckB]⟩, fun _ => rfl⟩
  | bufLast hs last =>
    exact ⟨_, .bufLast (st ▸ hs) (pl ▸ last), ⟨rfl, by simp [pl], by simp [ckA], by simp [ckA, ckB]⟩, fun _ => rfl⟩
  | caMatch hs hv => exact ⟨_, .caMatch (st ▸ hs) (ckA ▸ hv), ⟨rfl, pl, ckA, ckB⟩, fun _ => rfl⟩
  | caMism hs hv =>
    refine ⟨_, .caMism (st ▸ hs) (ckA ▸ hv), ⟨by simp, by simpa using pl, by simpa using ckA, by simpa using ckB⟩,
      fun n => ?_⟩
    rw [frameEventsOf_statCheckOp, frameEventsOf_statCheckOp]; rfl
  | cbMatch p hs hv hp =>
    refine ⟨_, .cbMatch p (st ▸ hs) (ckB ▸ hv) (pl ▸ hp),
      ⟨by simp, by simpa using pl, by simpa using ckA, by simpa using ckB⟩, fun n => ?_⟩
    rw [frameEventsOf_statCheckOp, frameEventsOf_statCheckOp]; rfl
  | cbMism hs hv =>
    refine ⟨_, .cbMism (st ▸ hs) (ckB ▸ hv), ⟨by simp, by simpa using pl, by simpa using ckA, by simpa using ckB⟩,
      fun n => ?_⟩
    rw [frameEventsOf_statCheckOp, frameEventsOf_statCheckOp]; rfl

theorem ItemStep.sameFrame {s' : State} (same : SameFrame s s') (step : ItemStep s it t) :
    ∃ t', ItemStep s' it t' ∧ SameFrame t t' ∧ SameFrameEvents t t' := by
  cases step with
  | reset => exact ⟨_, .reset, ⟨rfl, rfl, rfl, rfl⟩, fun _ => rfl⟩
  | byte b =>
    obtain ⟨t', b', frame, events⟩ := b.sameFrame same
    exact ⟨t', .byte b', frame, events⟩
  | idle => exact ⟨_, .idle, ⟨same.st, same.pl, same.ckA, same.ckB⟩, fun _ => rfl⟩

theorem runFrom_sameFrame {s' : State} {evs : List (Nat × Event)} (same : SameFrame s s')
    (h : runFrom n s its = some (t, evs)) :
    ∃ t' evs', runFrom n s' its = some (t', evs') ∧ SameFrame t t' ∧ frameEventsOf evs = frameEventsOf evs' := by
  induction its generalizing n s s' evs with
  | nil => cases h; exact ⟨_, _, rfl, ⟨same.st, same.pl, same.ckA, same.ckB⟩, rfl⟩
  | cons it its ih =>
    obtain ⟨u, first, t, evs, rest, e⟩ := runFrom_cons_iff.1 h
    cases e
    obtain ⟨u', first', frame, events⟩ := first.sameFrame same
    obtain ⟨t', evs', rest', frame', events'⟩ := ih frame rest
    refine ⟨t', _, runFrom_cons_iff.2 ⟨u', first', t', evs', rest', rfl⟩, frame', ?_⟩
    rw [frameEventsOf_append, frameEventsOf_append, events n, events']

/-- Settles O51: step by step the two runs stay alike but for the counters. -/
theorem statisticsDoNotFeedBack : Obligations.StatisticsDoNotFeedBack := by
  intro s s' t items ev st pl ckA ckB h
  obtain ⟨t', ev', h', frame, events⟩ := runFrom_sameFrame ⟨st, pl, ckA, ckB⟩ h
  exact ⟨t', ev', h', frame.st, frame.pl, frame.ckA, frame.ckB, events⟩

/-! ## The good count along a run -/

/-- A step that neither resets nor reports adds its Samples to the good count. -/
theorem ItemStep.goodCnt (h : Inv s) (step : ItemStep s it t) (no_reset : it ≠ .reset)
    (no_report : reportsOf (t.events.map fun e => (n, e)) = []) :
    t.goodCnt.toNat = s.goodCnt.toNat + (samplesOf (t.events.map fun e => (n, e))).length := by
  cases step with
  | reset => exact absurd rfl no_reset
  | idle => rfl
  | byte b =>
    cases b with
    | caMism _ _ =>
      rcases statCheckOp_cases s.goodCnt (goto .seek1 s.quiet) with ⟨-, e⟩ | ⟨-, e⟩
      · rw [e] at no_report; simp [reportsOf] at no_report
      · rw [e]; rfl
    | cbMism _ _ =>
      rcases statCheckOp_cases s.goodCnt (goto .seek1 s.quiet) with ⟨-, e⟩ | ⟨-, e⟩
      · rw [e] at no_report; simp [reportsOf] at no_report
      · rw [e]; rfl
    | cbMatch p hs _ _ =>
      rcases statCheckOp_cases (incCounter s.goodCnt s.draws)
        (goto .seek1 (emit (.sample (decodePayload p)) (bumpGood s.quiet))) with ⟨-, e⟩ | ⟨-, e⟩
      · rw [e] at no_report; simp [reportsOf] at no_report
      · rw [e]; exact toNat_incCounter (h.goodCnt_lt (.inr (.inr hs))) _
    | _ => rfl

theorem runFrom_goodCnt {evs : List (Nat × Event)} (h : Inv s) (run : runFrom n s its = some (t, evs))
    (no_reset : .reset ∉ its) (no_report : reportsOf evs = []) :
    t.goodCnt.toNat = s.goodCnt.toNat + (samplesOf evs).length := by
  induction its generalizing n s evs with
  | nil => cases run; rfl
  | cons it its ih =>
    obtain ⟨u, first, t, evs, rest, e⟩ := runFrom_cons_iff.1 run
    cases e
    obtain ⟨not_reset, no_reset_rest⟩ := List.ne_and_not_mem_of_not_mem_cons no_reset
    rw [reportsOf_append, List.append_eq_nil_iff] at no_report
    obtain ⟨no_report_first, no_report_rest⟩ := no_report
    have one := first.goodCnt h not_reset.symm no_report_first
    have more := ih (h.of_itemStep first) rest no_reset_rest no_report_rest
    rw [more, one, samplesOf_append, List.length_append, Nat.add_assoc]

/-- Settles O56: the steps' Samples add up. -/
theorem goodCountIsTheNumberOfSamples : Obligations.GoodCountIsTheNumberOfSamples :=
  fun _ _ _ _ h run no_reset no_report => runFrom_goodCnt h run no_reset no_report

/-! ## The part of a frame that is received -/

/-- What a state has received of a frame (spec R70): nothing in SEEK1, and all but the last byte in CHECK_B. -/
def received (s : State) : List Byte :=
  match s.st with
  | .seek1 => []
  | .seek2 => [params.sync1]
  | .type => [params.sync1, params.sync2]
  | .buffering => [params.sync1, params.sync2] ++ s.pl.bytes
  | .checkA => [params.sync1, params.sync2] ++ s.pl.bytes
  | .checkB => [params.sync1, params.sync2] ++ s.pl.bytes ++ [s.ckA]

theorem received_of_seek1 (hs : s.st = .seek1) : received s = [] := by rw [received, hs]

theorem received_of_checkB (hs : s.st = .checkB) :
    received s = [params.sync1, params.sync2] ++ s.pl.bytes ++ [s.ckA] := by rw [received, hs]

theorem length_received_pos (hs : s.st ≠ .seek1) : 1 ≤ (received s).length := by
  unfold received
  split
  · next e => exact absurd e hs
  all_goals simp

/-- In every state of the invariant at least one byte of the frame is still to come. -/
theorem Inv.length_received_le (h : Inv s) : (received s).length ≤ 14 := by
  have room : s.pl.len ≤ 11 := h.buffer.2
  unfold received
  split <;> simp <;> omega

theorem Inv.length_received_of_checkB (h : Inv s) (hs : s.st = .checkB) : (received s).length = 14 := by
  have full : s.pl.len = 11 := h.lenChecking (.inr hs)
  simp [received_of_checkB hs, full]

/-- A byte leads to SEEK1, or it is the next byte received of the frame. -/
theorem ByteStep.received_next (b : ByteStep s v t) : t.st = .seek1 ∨ received t = received s ++ [v] := by
  cases b with
  | s1Miss hs _ => exact .inl hs
  | s2Miss _ _ => exact .inl rfl
  | tyUnk _ _ => exact .inl rfl
  | caMism _ _ => exact .inl (statCheckOp_st ..)
  | cbMatch _ _ _ _ => exact .inl (statCheckOp_st ..)
  | cbMism _ _ => exact .inl (statCheckOp_st ..)
  | s1Hit hs hv => exact .inr (by simp [received, hs, hv])
  | s2Hit hs hv => exact .inr (by simp [received, hs, hv])
  | tySample hs hv => exact .inr (by simp [received, hs, hv, Memory.bytes])
  | bufApp hs _ => exact .inr (by simp [received, hs])
  | bufLast hs _ => exact .inr (by simp [received, hs])
  | caMatch hs hv => exact .inr (by simp [received, hs, hv])

/-- The bytes that complete a frame of fifteen bring the machine to SEEK1. -/
theorem exists_take_to_seek1 (h : Inv s) (hs : s.st ≠ .seek1) (n : Nat)
    (enough : 15 ≤ (received s).length + bs.length) :
    ∃ k, 1 ≤ k ∧ k ≤ bs.length ∧ ∃ t evs, runFrom n s (byteItems (bs.take k)) = some (t, evs) ∧ t.st = .seek1 := by
  induction bs generalizing s n with
  | nil => exact absurd (enough.trans h.length_received_le) (by decide)
  | cons v bs ih =>
    obtain ⟨t, step⟩ := h.exists_itemStep (.byte v)
    have b := itemStep_byte_iff.1 step
    by_cases back : t.st = .seek1
    · exact ⟨1, Nat.le_refl 1, by simp, _, _, runFrom_byte (step_of_byteStep b), back⟩
    · have longer : received t = received s ++ [v] := b.received_next.resolve_left back
      have enough' : 15 ≤ (received t).length + bs.length := by
        simp only [longer, List.length_append, List.length_cons, List.length_nil] at enough ⊢; omega
      obtain ⟨k, pos, le, u, evs, run, st⟩ := ih (h.of_itemStep step) back (n + 1) enough'
      exact ⟨k + 1, by omega, by simpa using le, u, _, runFrom_cons_of_byteStep b run, st⟩

/-- Settles O48: outside SEEK1 at least one byte of the fifteen is received. -/
theorem fourteenBytesReturnToSeek1 : Obligations.FourteenBytesReturnToSeek1 := by
  intro s bs h hs len
  have enough : 15 ≤ (received s).length + bs.length := by
    have := length_received_pos hs
    omega
  obtain ⟨k, pos, le, run⟩ := exists_take_to_seek1 h hs 0 enough
  exact ⟨k, pos, by rwa [len] at le, run⟩

/-- Only CHECK_B emits Samples. -/
theorem EventLists.no_sample (h : EventLists s t) (hs : s.st ≠ .checkB) (n : Nat) :
    samplesOf (t.events.map fun e => (n, e)) = [] := by
  rcases h with e | ⟨v, -, e⟩ | ⟨x, st, e⟩ | ⟨x, g, m, st, -, e⟩ | ⟨g, m, -, -, e⟩
  · rw [e]; rfl
  · rw [e]; rfl
  · exact absurd st hs
  · exact absurd st hs
  · rw [e]; rfl

/-- Bytes too few to complete a frame give no Sample. -/
theorem Inv.no_sample_of_few {evs : List (Nat × Event)} (h : Inv s) (run : runFrom n s (byteItems bs) = some (t, evs))
    (few : (received s).length + bs.length < 15) : samplesOf evs = [] := by
  induction bs generalizing n s evs with
  | nil => cases run; rfl
  | cons v bs ih =>
    obtain ⟨u, first, t, evs, rest, e⟩ := runFrom_cons_iff.1 run
    have b := itemStep_byte_iff.1 first
    cases e
    rw [List.length_cons] at few
    have not_last : s.st ≠ .checkB := fun hs => by rw [h.length_received_of_checkB hs] at few; omega
    have still_few : (received u).length + bs.length < 15 := by
      rcases b.received_next with back | longer
      · rw [received_of_seek1 back, List.length_nil]; omega
      · rw [longer, List.length_append, List.length_singleton]; omega
    rw [samplesOf_append, b.eventLists.no_sample not_last, ih (h.of_itemStep first) rest still_few, List.append_nil]

/-! ## Samples come from the wire -/

/-- STAT.CHECK emits no Sample. -/
theorem sample_mem_statCheckOp {x : Sample} {g : Counter} :
    Event.sample x ∈ (statCheckOp g s).events ↔ Event.sample x ∈ s.events := by
  rcases statCheckOp_events g s with e | ⟨-, e⟩ <;> simp [e]

/-- A step that emits a Sample completes the frame of that Sample: the payload is of the SAMPLE type, and the two bytes
behind it are its checksum. -/
theorem ByteStep.received_of_sample {x : Sample} (h : Inv s) (b : ByteStep s v t) (emitted : Event.sample x ∈ t.events) :
    received s ++ [v] = encodeSample x := by
  cases b with
  | cbMatch p hs hv hp =>
    have typed : (payloadBytes p).head? = some params.typeSample := by
      have full : s.pl.len = 11 := h.lenChecking (.inr hs)
      rw [← hp]; exact h.firstByte (by omega)
    have same : x = decodePayload p := by simpa [sample_mem_statCheckOp] using emitted
    have sums := h.sums
    rw [same, encodeSample_eq, payloadFor_decodePayload typed, ← hp, frameOf, ← sums, received_of_checkB hs, hv]
    simp
  | caMism _ _ => simp [sample_mem_statCheckOp] at emitted
  | cbMism _ _ => simp [sample_mem_statCheckOp] at emitted
  | tyUnk _ _ => simp at emitted
  | _ => cases emitted

/-- What is received of a frame are the last bytes seen. -/
theorem ItemStep.received_suffix {seen : List Byte} (before : received s <:+ seen) (step : ItemStep s it t) :
    received t <:+ seenAfter seen it := by
  cases step with
  | reset => exact List.nil_suffix
  | idle => exact before
  | byte b =>
    rcases b.received_next with back | longer
    · rw [received_of_seek1 back]; exact List.nil_suffix
    · obtain ⟨earlier, rfl⟩ := before
      exact ⟨earlier, by rw [longer, seenAfter, List.append_assoc]⟩

theorem received_suffix_of_runFrom {evs : List (Nat × Event)} {seen : List Byte} (before : received s <:+ seen)
    (run : runFrom n s its = some (t, evs)) : received t <:+ its.foldl seenAfter seen := by
  induction its generalizing n s evs seen with
  | nil => cases run; exact before
  | cons it its ih =>
    obtain ⟨u, first, t, evs, rest, e⟩ := runFrom_cons_iff.1 run
    cases e
    exact ih (first.received_suffix before) rest

/-- Settles O44: the byte whose step emits completes the frame, the rest of which are the last bytes seen. -/
theorem emittedSampleWasOnTheWire : Obligations.EmittedSampleWasOnTheWire := by
  intro items it t u ev x run step emitted
  have inv : Inv t := (inv_reset params_valid).of_runFrom run
  have nothing : received State.reset <:+ [] := List.suffix_rfl
  have seen : received t <:+ bytesSinceReset items := received_suffix_of_runFrom nothing run
  rw [bytesSinceReset, List.foldl_append, ← bytesSinceReset, List.foldl_cons, List.foldl_nil]
  cases step_feed_iff.1 step with
  | reset => cases emitted
  | idle => cases emitted
  | byte b =>
    obtain ⟨earlier, seen⟩ := seen
    exact ⟨earlier, by rw [← b.received_of_sample inv emitted, seenAfter, ← seen, List.append_assoc]⟩

end Sys2Proof.Machine
end

section
/-! # Frames over runs (spec 42_frame_synchronizer.md section 3): what follows a valid, a damaged or a shifted frame. -/

namespace Sys2Proof.Machine

variable {s t u : State} {n : Nat} {v : Byte} {bs d : List Byte}

/-! ## The bytes of a frame -/

/-- The ten payload bytes behind the type byte. -/
def dataBytes (x : Sample) : List Byte := (payloadBytes (payloadFor x)).tail

/-- The three bytes before the data. -/
def frameHead : List Byte := [params.sync1, params.sync2, params.typeSample]

theorem payloadBytes_eq_cons (x : Sample) : payloadBytes (payloadFor x) = params.typeSample :: dataBytes x := by
  rw [dataBytes, payloadBytes_payloadFor, List.tail_cons]

@[simp] theorem length_dataBytes (x : Sample) : (dataBytes x).length = 10 := by simp [dataBytes]

theorem encodeSample_eq_append (x : Sample) : encodeSample x = frameHead ++ dataBytes x ++
    [(checksum (params.typeSample :: dataBytes x)).1, (checksum (params.typeSample :: dataBytes x)).2] := by
  rw [encodeSample_eq, payloadBytes_eq_cons]; rfl

/-! ## One byte at the end of a run -/

/-- A step of a byte leaves nothing listed. -/
theorem ByteStep.inputs (b : ByteStep s v t) : t.inputs = [] := by cases b <;> simp

theorem runFrom_of_byteStep (b : ByteStep s v t) (n : Nat) :
    runFrom n s (byteItems [v]) = some (t, t.events.map fun e => (n, e)) := by
  rw [runFrom_byte (step_of_byteStep b), ← b.inputs]

/-! ## From SEEK1 to CHECK_A -/

/-- Bytes that fill the buffer are stored one behind the other, whatever they are. -/
theorem runFrom_fill (hs : s.st = .buffering) (some_byte : bs ≠ []) (fill : s.pl.len + bs.length = params.payloadLen)
    (n : Nat) : ∃ t, runFrom n s (byteItems bs) = some (t, []) ∧ t.st = .checkA ∧ t.pl.bytes = s.pl.bytes ++ bs ∧
      t.totalCnt = s.totalCnt ∧ t.goodCnt = s.goodCnt := by
  induction bs generalizing s n with
  | nil => exact absurd rfl some_byte
  | cons v bs ih =>
    rw [List.length_cons] at fill
    by_cases last : bs = []
    · subst last
      have b : ByteStep s v _ := .bufLast hs fill
      exact ⟨_, runFrom_of_byteStep b n, rfl, by simp, rfl, rfl⟩
    · have more : 1 ≤ bs.length := List.length_pos_iff.2 last
      have b : ByteStep s v _ := .bufApp hs (by omega)
      obtain ⟨t, run, st, bytes, total, good⟩ := ih
        (s := { s.quiet with pl := s.pl.append v, ckA := s.ckA + v, ckB := s.ckB + (s.ckA + v) }) hs last
        (by simp only [Memory.len_append]; omega) (n + 1)
      exact ⟨t, runFrom_cons_of_byteStep b run, st, by simpa using bytes, total, good⟩

/-- `t` is in CHECK_A with the type byte and `d` buffered, by an attempt that started in `s` and is counted. -/
structure Attempt (s t : State) (d : List Byte) : Prop where
  inv : Inv t
  st : t.st = .checkA
  bytes : t.pl.bytes = params.typeSample :: d
  total : t.totalCnt = s.totalCnt + 1
  good : t.goodCnt = s.goodCnt

/-- The state in which the type byte of a frame met in SEEK1 starts an attempt. -/
def attemptStart (s : State) : State := { s.quiet with
  st := .buffering, pl := [(0, params.typeSample)], ckA := params.typeSample, ckB := params.typeSample,
  totalCnt := incCounter s.totalCnt s.draws, draws := drawsAfterInc s.totalCnt s.draws }

/-- The two sync bytes lead from SEEK1 to TYPE. -/
theorem runFrom_syncs (hs : s.st = .seek1) (n : Nat) :
    runFrom n s (byteItems [params.sync1, params.sync2]) = some (goto .type s.quiet, []) := by
  have second : ByteStep (goto .seek2 s.quiet) params.sync2 (goto .type s.quiet) := .s2Hit rfl rfl
  exact runFrom_cons_of_byteStep (.s1Hit hs rfl) (runFrom_of_byteStep second (n + 1))

theorem runFrom_frameHead (hs : s.st = .seek1) (n : Nat) :
    runFrom n s (byteItems frameHead) = some (attemptStart s, []) := by
  have third : ByteStep (goto .type s.quiet) params.typeSample (attemptStart s) := .tySample rfl rfl
  exact runFrom_bytes_append (runFrom_syncs hs n) (runFrom_of_byteStep third (n + 2))

/-- The head of a frame and any ten bytes lead from SEEK1 to CHECK_A, with no event. -/
theorem exists_attempt (h : Inv s) (hs : s.st = .seek1) (len : d.length = 10) (n : Nat) :
    ∃ t, runFrom n s (byteItems (frameHead ++ d)) = some (t, []) ∧ Attempt s t d := by
  have fits := h.totalCnt_lt (.inl hs)
  obtain ⟨t, fill, st, bytes, total, good⟩ := runFrom_fill (s := attemptStart s) (bs := d) rfl
    (by rintro rfl; simp at len) (by rw [len]; rfl) (n + frameHead.length)
  have run := runFrom_bytes_append (runFrom_frameHead hs n) fill
  exact ⟨t, run, h.of_runFrom run, st, bytes, total.trans (incCounter_of_fits fits _), good⟩

/-! ## The two checksum bytes -/

/-- `u` is in SEEK1 after a mismatch that ends an attempt started in `s`. -/
structure Rejected (s u : State) : Prop where
  st : u.st = .seek1
  below : s.totalCnt.toNat + 1 ≠ params.statsThreshold →
    u.events = [] ∧ u.totalCnt = s.totalCnt + 1 ∧ u.goodCnt = s.goodCnt
  due : s.totalCnt.toNat + 1 = params.statsThreshold →
    u.events = [.statsReport s.goodCnt (s.totalCnt + 1)] ∧ u.totalCnt = 0 ∧ u.goodCnt = 0

/-- `u` is in SEEK1 after the match that ends an attempt started in `s` with the Sample `x`. -/
structure Accepted (s u : State) (x : Sample) : Prop where
  st : u.st = .seek1
  bytes : u.pl.bytes = payloadBytes (payloadFor x)
  below : s.totalCnt.toNat + 1 ≠ params.statsThreshold →
    u.events = [.sample x] ∧ u.totalCnt = s.totalCnt + 1 ∧ u.goodCnt = s.goodCnt + 1
  due : s.totalCnt.toNat + 1 = params.statsThreshold →
    u.events = [.sample x, .statsReport (s.goodCnt + 1) (s.totalCnt + 1)] ∧ u.totalCnt = 0 ∧ u.goodCnt = 0

/-- The end of an attempt by STAT.CHECK, with the counts of the state it started in. -/
theorem statCheckOp_of_attempt {g : Counter} (fits : s.totalCnt.toNat < 255) (total : t.totalCnt = s.totalCnt + 1) :
    (s.totalCnt.toNat + 1 ≠ params.statsThreshold → statCheckOp g t = t) ∧
    (s.totalCnt.toNat + 1 = params.statsThreshold → statCheckOp g t =
      { t with events := t.events ++ [.statsReport g (s.totalCnt + 1)], totalCnt := 0, goodCnt := 0 }) := by
  have counted : t.totalCnt.toNat = s.totalCnt.toNat + 1 := by rw [total, Counter.toNat_add_one fits]
  rw [← counted, ← total]
  exact ⟨statCheckOp_below, statCheckOp_at⟩

theorem rejected_statCheckOp (fits : s.totalCnt.toNat < 255) (total : t.totalCnt = s.totalCnt + 1)
    (good : t.goodCnt = s.goodCnt) : Rejected s (statCheckOp t.goodCnt (goto .seek1 t.quiet)) := by
  obtain ⟨below, due⟩ := statCheckOp_of_attempt (t := goto .seek1 t.quiet) (g := t.goodCnt) fits total
  refine ⟨by simp, fun h => ?_, fun h => ?_⟩
  · rw [below h]; exact ⟨rfl, total, good⟩
  · rw [due h, good]; exact ⟨rfl, rfl, rfl⟩

theorem accepted_statCheckOp {x : Sample} (fits : s.totalCnt.toNat < 255) (total : t.totalCnt = s.totalCnt + 1)
    (good : t.goodCnt = s.goodCnt + 1) (events : t.events = [.sample x]) (st : t.st = .seek1)
    (bytes : t.pl.bytes = payloadBytes (payloadFor x)) : Accepted s (statCheckOp t.goodCnt t) x := by
  obtain ⟨below, due⟩ := statCheckOp_of_attempt (g := t.goodCnt) fits total
  refine ⟨by rw [statCheckOp_st, st], by rw [statCheckOp_pl, bytes], fun h => ?_, fun h => ?_⟩
  · rw [below h]; exact ⟨events, total, good⟩
  · rw [due h, events, good]; exact ⟨rfl, rfl, rfl⟩

/-- In CHECK_A the sums of the buffer are in the accumulators. -/
theorem Attempt.sums (a : Attempt s t d) : (t.ckA, t.ckB) = checksum (params.typeSample :: d) := by
  rw [← a.bytes]; exact a.inv.sums

/-- A first checksum byte that does not match ends the attempt. -/
theorem Attempt.runFrom_mismatchA (a : Attempt s t d) (fits : s.totalCnt.toNat < 255)
    (hv : v ≠ (checksum (params.typeSample :: d)).1) (n : Nat) :
    ∃ u, runFrom n t (byteItems [v]) = some (u, u.events.map fun e => (n, e)) ∧ Rejected s u := by
  rw [← a.sums] at hv
  exact ⟨_, runFrom_of_byteStep (.caMism a.st hv) n, rejected_statCheckOp fits a.total a.good⟩

/-- A matching first byte and a second that does not match end the attempt. -/
theorem Attempt.runFrom_mismatchB (a : Attempt s t d) (fits : s.totalCnt.toNat < 255)
    (hv : v ≠ (checksum (params.typeSample :: d)).2) (n : Nat) :
    ∃ u, runFrom n t (byteItems [(checksum (params.typeSample :: d)).1, v]) =
      some (u, u.events.map fun e => (n + 1, e)) ∧ Rejected s u := by
  rw [← a.sums] at hv ⊢
  have b : ByteStep (goto .checkB t.quiet) v _ := .cbMism rfl hv
  exact ⟨_, runFrom_cons_of_byteStep (.caMatch a.st rfl) (runFrom_of_byteStep b (n + 1)),
    rejected_statCheckOp fits a.total a.good⟩

/-- The two checksum bytes of a Sample's payload accept it. -/
theorem Attempt.runFrom_match {x : Sample} (a : Attempt s t (dataBytes x)) (fits : s.totalCnt.toNat < 255) (n : Nat) :
    ∃ u, runFrom n t (byteItems [(checksum (params.typeSample :: dataBytes x)).1,
        (checksum (params.typeSample :: dataBytes x)).2]) = some (u, u.events.map fun e => (n + 1, e)) ∧
      Accepted s u x := by
  have bytes : t.pl.bytes = payloadBytes (payloadFor x) := a.bytes.trans (payloadBytes_eq_cons x).symm
  have good : incCounter t.goodCnt t.draws = s.goodCnt + 1 := by
    rw [incCounter_of_fits (a.inv.goodCnt_lt (.inr (.inl a.st))), a.good]
  rw [← a.sums]
  have b : ByteStep (goto .checkB t.quiet) t.ckB _ := .cbMatch (payloadFor x) rfl rfl bytes
  refine ⟨_, runFrom_cons_of_byteStep (.caMatch a.st rfl) (runFrom_of_byteStep b (n + 1)), ?_⟩
  rw [decodePayload_payloadFor]
  exact accepted_statCheckOp (t := goto .seek1 (emit (.sample x) (bumpGood (goto .checkB t.quiet).quiet)))
    fits a.total good rfl rfl bytes

/-! ## Whole frames from SEEK1 -/

/-- A frame whose first checksum byte does not match its data is rejected at that byte. -/
theorem exists_rejectedA (h : Inv s) (hs : s.st = .seek1) (len : d.length = 10)
    (hv : v ≠ (checksum (params.typeSample :: d)).1) :
    ∃ u k, run s (byteItems (frameHead ++ d ++ [v])) = some (u, u.events.map fun e => (k, e)) ∧ Rejected s u := by
  obtain ⟨t, start, a⟩ := exists_attempt h hs len 0
  obtain ⟨u, last, rejected⟩ := a.runFrom_mismatchA (h.totalCnt_lt (.inl hs)) hv _
  exact ⟨u, _, runFrom_bytes_append start last, rejected⟩

/-- A frame whose second checksum byte alone does not match is rejected at that byte. -/
theorem exists_rejectedB (h : Inv s) (hs : s.st = .seek1) (len : d.length = 10)
    (hv : v ≠ (checksum (params.typeSample :: d)).2) :
    ∃ u k, run s (byteItems (frameHead ++ d ++ [(checksum (params.typeSample :: d)).1, v])) =
      some (u, u.events.map fun e => (k, e)) ∧ Rejected s u := by
  obtain ⟨t, start, a⟩ := exists_attempt h hs len 0
  obtain ⟨u, last, rejected⟩ := a.runFrom_mismatchB (h.totalCnt_lt (.inl hs)) hv _
  exact ⟨u, _, runFrom_bytes_append start last, rejected⟩

/-- A valid frame is accepted at its fifteenth byte. -/
theorem exists_accepted (h : Inv s) (hs : s.st = .seek1) (x : Sample) (n : Nat) :
    ∃ u, runFrom n s (byteItems (encodeSample x)) = some (u, u.events.map fun e => (n + 14, e)) ∧ Accepted s u x := by
  obtain ⟨t, start, a⟩ := exists_attempt h hs (length_dataBytes x) n
  obtain ⟨u, last, accepted⟩ := a.runFrom_match (h.totalCnt_lt (.inl hs)) (n + 13)
  refine ⟨u, ?_, accepted⟩
  rw [encodeSample_eq_append]
  exact runFrom_bytes_append start (by simpa [frameHead] using last)

/-- Settles O43: the events of the fifteenth step are those of an accepted frame. -/
theorem everyValidFrameIsAccepted : Obligations.EveryValidFrameIsAccepted := by
  intro s x h hs
  obtain ⟨u, run, accepted⟩ := exists_accepted h hs x 0
  refine ⟨u, accepted.st, accepted.bytes, fun below => ?_, fun due => ?_⟩
  · obtain ⟨events, total, good⟩ := accepted.below below
    rw [events] at run
    exact ⟨run, total, good⟩
  · obtain ⟨events, total, good⟩ := accepted.due due
    rw [events] at run
    exact ⟨run, total, good⟩

/-- An accepted frame gives its Sample and no other. -/
theorem Accepted.samplesOf {x : Sample} (a : Accepted s u x) (n : Nat) :
    samplesOf (u.events.map fun e => (n, e)) = [x] := by
  by_cases due : s.totalCnt.toNat + 1 = params.statsThreshold
  · rw [(a.due due).1]; rfl
  · rw [(a.below due).1]; rfl

/-- Settles O45: the noise leaves a state of the invariant, in SEEK1. -/
theorem frameAfterHarmlessNoiseIsAccepted : Obligations.FrameAfterHarmlessNoiseIsAccepted := by
  intro noise t ev x noisy hs silent
  have inv : Inv t := (inv_reset params_valid).of_runFrom noisy
  obtain ⟨u, frame, accepted⟩ := exists_accepted inv hs x (0 + noise.length)
  refine ⟨u, _, runFrom_append.2 ⟨t, ev, noisy, u, _, frame, rfl⟩, ?_⟩
  rw [samplesOf_append, silent, accepted.samplesOf, List.nil_append]

/-- Settles O46: each byte that is not SYNC1 is a step that changes nothing of the block. -/
theorem noiseWithoutSyncBytesIsIgnored : Obligations.NoiseWithoutSyncBytesIsIgnored := by
  intro s noise hs no_sync
  rw [run]
  generalize 0 = n
  induction noise generalizing s n with
  | nil => exact ⟨_, rfl, rfl⟩
  | cons v noise ih =>
    obtain ⟨other, rest⟩ := List.ne_and_not_mem_of_not_mem_cons no_sync
    obtain ⟨t, run, block⟩ := ih s.quiet hs rest (n + 1)
    exact ⟨t, runFrom_cons_of_byteStep (.s1Miss hs other.symm) run, block⟩

/-- Where every attempt so far was good, the frames of just enough Samples to reach the threshold give those Samples and one
report. -/
theorem exists_accepted_to_threshold {xs : List Sample} (h : Inv s) (hs : s.st = .seek1)
    (all_good : s.goodCnt = s.totalCnt) (reach : s.totalCnt.toNat + xs.length = params.statsThreshold) (n : Nat) :
    ∃ t ev, runFrom n s (byteItems (xs.flatMap encodeSample)) = some (t, ev) ∧
      samplesOf ev = xs ∧ reportsOf ev = [(150, 150)] ∧ t.st = .seek1 ∧ t.totalCnt = 0 ∧ t.goodCnt = 0 := by
  induction xs generalizing s n with
  | nil =>
    have room := h.totalSeeking (.inl hs)
    rw [List.length_nil] at reach
    omega
  | cons x xs ih =>
    have fits := h.totalCnt_lt (.inl hs)
    rw [List.length_cons] at reach
    obtain ⟨u, frame, accepted⟩ := exists_accepted h hs x n
    by_cases due : s.totalCnt.toNat + 1 = params.statsThreshold
    · have last : xs = [] := List.length_eq_zero_iff.1 (by omega)
      obtain ⟨events, total, good⟩ := accepted.due due
      have full : s.totalCnt + 1 = 150 := BitVec.eq_of_toNat_eq (by rw [Counter.toNat_add_one fits, due]; rfl)
      refine ⟨u, _, by rw [last, List.flatMap_singleton]; exact frame, ?_, ?_, accepted.st, total, good⟩
      · rw [accepted.samplesOf, last]
      · rw [events, all_good, full]; rfl
    · obtain ⟨events, total, good⟩ := accepted.below due
      have inv := h.of_runFrom frame
      have reach' : u.totalCnt.toNat + xs.length = params.statsThreshold := by
        rw [total, Counter.toNat_add_one fits]; omega
      obtain ⟨t, ev, rest, samples, reports, after⟩ := ih inv accepted.st (by rw [good, total, all_good]) reach'
        (n + (encodeSample x).length)
      refine ⟨t, _, by rw [List.flatMap_cons]; exact runFrom_bytes_append frame rest, ?_, ?_, after⟩
      · rw [samplesOf_append, accepted.samplesOf, samples]; rfl
      · rw [reportsOf_append, events, reports]; rfl

/-- Settles O55: from reset 150 attempts are missing. -/
theorem oneHundredFiftyFramesAreReported : Obligations.OneHundredFiftyFramesAreReported := by
  intro xs len
  exact exists_accepted_to_threshold (inv_reset params_valid) rfl rfl (by rw [len]; rfl) 0

/-! ## The checksum alone decides -/

theorem samplesOf_statCheckOp (g : Counter) (s : State) (n : Nat) :
    samplesOf ((statCheckOp g s).events.map fun e => (n, e)) = samplesOf (s.events.map fun e => (n, e)) := by
  rcases statCheckOp_events g s with e | ⟨-, e⟩
  · rw [e]
  · rw [e, List.map_append, samplesOf_append]
    exact List.append_nil _

/-- In CHECK_A two bytes that are the checksum of the buffer give its Sample. -/
theorem exists_sample_of_checksum (h : Inv s) (hs : s.st = .checkA) : ∃ p t ev, s.pl.bytes = payloadBytes p ∧
    run s (byteItems [s.ckA, s.ckB]) = some (t, ev) ∧ samplesOf ev = [decodePayload p] := by
  obtain ⟨p, hp⟩ := exists_payload ((Memory.length_bytes _).trans (h.lenChecking (.inl hs)))
  have b : ByteStep (goto .checkB s.quiet) s.ckB _ := .cbMatch p rfl rfl hp
  refine ⟨p, _, _, hp, runFrom_cons_of_byteStep (.caMatch hs rfl) (runFrom_of_byteStep b 1), ?_⟩
  rw [samplesOf_append, samplesOf_statCheckOp]
  rfl

/-- In CHECK_A two bytes that are not the checksum of the buffer give no Sample. -/
theorem exists_no_sample_of_mismatch (h : Inv s) (hs : s.st = .checkA) {x y : Byte}
    (mismatch : ¬ (x = s.ckA ∧ y = s.ckB)) :
    ∃ t ev, run s (byteItems [x, y]) = some (t, ev) ∧ samplesOf ev = [] := by
  by_cases hx : x = s.ckA
  · have b : ByteStep (goto .checkB s.quiet) y _ := .cbMism rfl fun hy => mismatch ⟨hx, hy⟩
    refine ⟨_, _, runFrom_cons_of_byteStep (.caMatch hs hx) (runFrom_of_byteStep b 1), ?_⟩
    rw [samplesOf_append, samplesOf_statCheckOp]
    rfl
  · have b : ByteStep s x _ := .caMism hs hx
    obtain ⟨t, ev, rest⟩ := (h.of_itemStep (.byte b)).exists_runFrom 1 (byteItems [y])
    refine ⟨t, _, runFrom_cons_of_byteStep b rest, ?_⟩
    have none : samplesOf ev = [] := (h.of_itemStep (.byte b)).no_sample_of_few rest
      (by rw [received_of_seek1 (statCheckOp_st ..)]; simp)
    rw [samplesOf_append, samplesOf_statCheckOp, none]
    rfl

/-- Settles O52: the accumulators are the checksum of the buffer. -/
theorem acceptanceIsByChecksumAlone : Obligations.AcceptanceIsByChecksumAlone := by
  intro s x y h hs
  rw [← h.sums, Prod.mk.injEq]
  by_cases accept : x = s.ckA ∧ y = s.ckB
  · obtain ⟨p, t, ev, hp, run, samples⟩ := exists_sample_of_checksum h hs
    obtain ⟨rfl, rfl⟩ := accept
    refine ⟨t, ev, run, ⟨fun _ => ⟨rfl, rfl⟩, fun _ => ⟨_, samples⟩⟩, fun w one => ⟨p, hp, ?_⟩⟩
    exact List.singleton_inj.1 (one.symm.trans samples)
  · obtain ⟨t, ev, run, none⟩ := exists_no_sample_of_mismatch h hs accept
    refine ⟨t, ev, run, ⟨fun ⟨w, one⟩ => ?_, fun e => absurd e accept⟩, fun w one => ?_⟩
    · rw [none] at one; cases one
    · rw [none] at one; cases one

end Sys2Proof.Machine
end

section
/-! # Damaged and shifted frames (spec 42_frame_synchronizer.md section 3, 70_reset_and_hazards.md section 2): a changed data
or checksum byte, a changed head byte, and sync bytes before a frame. -/

namespace Sys2Proof.Machine

variable {s t u : State} {n j : Nat} {v a b : Byte} {d : List Byte}

/-! ## A changed data or checksum byte -/

@[simp] theorem length_frameHead : frameHead.length = 3 := rfl

theorem length_head_append (len : d.length = 10) : (frameHead ++ d).length = 13 := by simp [len]

theorem set_data (len : d.length = 10) (low : 3 ≤ j) (high : j ≤ 12) :
    (frameHead ++ d ++ [a, b]).set j v = frameHead ++ d.set (j - 3) v ++ [a, b] := by
  rw [List.set_append_left _ _ (by rw [length_head_append len]; omega), List.set_append_right _ _ low, length_frameHead]

theorem getElem?_data (len : d.length = 10) (low : 3 ≤ j) (high : j ≤ 12) :
    (frameHead ++ d ++ [a, b])[j]? = d[j - 3]? := by
  rw [List.getElem?_append_left (by rw [length_head_append len]; omega), List.getElem?_append_right low,
    length_frameHead]

theorem set_checksum (len : d.length = 10) (i : Nat) :
    (frameHead ++ d ++ [a, b]).set (13 + i) v = frameHead ++ d ++ [a, b].set i v := by
  rw [List.set_append_right _ _ (by rw [length_head_append len]; omega), length_head_append len, Nat.add_sub_cancel_left]

theorem getElem?_checksum (len : d.length = 10) (i : Nat) : (frameHead ++ d ++ [a, b])[13 + i]? = [a, b][i]? := by
  rw [List.getElem?_append_right (by rw [length_head_append len]; omega), length_head_append len,
    Nat.add_sub_cancel_left]

theorem take_to_checksumA (len : d.length = 10) :
    (frameHead ++ d ++ [a, b]).take 14 = frameHead ++ d ++ [a] := by
  rw [List.append_cons]
  exact List.take_left' (by simp [len])

/-- One changed byte changes the first sum, wherever it stands. -/
theorem checksum_fst_set_ne {i : Nat} {bs : List Byte} (lt : i < bs.length) (changed : bs[i]? ≠ some v) :
    (checksum (bs.set i v)).1 ≠ (checksum bs).1 := by
  have ne : v ≠ bs[i] := by rintro rfl; exact changed (List.getElem?_eq_getElem lt)
  have whole : bs = bs.take i ++ bs[i] :: bs.drop (i + 1) := by
    rw [List.getElem_cons_drop, List.take_append_drop]
  have other : bs.set i v = bs.take i ++ v :: bs.drop (i + 1) := List.set_eq_take_append_cons_drop.trans (if_pos lt)
  rw [other]
  conv_rhs => rw [whole]
  exact checksum_fst_ne_of_byte_ne ne _ _

/-- What a rejected frame shows: no Sample, and a report only where the attempt was the one that makes it due. -/
theorem Rejected.events_shown (r : Rejected s u) (n : Nat) :
    samplesOf (u.events.map fun e => (n, e)) = [] ∧
    (s.totalCnt.toNat + 1 ≠ params.statsThreshold →
      u.events.map (fun e => (n, e)) = [] ∧ u.totalCnt = s.totalCnt + 1 ∧ u.goodCnt = s.goodCnt) ∧
    (s.totalCnt.toNat + 1 = params.statsThreshold →
      reportsOf (u.events.map fun e => (n, e)) = [(s.goodCnt, s.totalCnt + 1)] ∧ u.totalCnt = 0 ∧ u.goodCnt = 0) := by
  by_cases due : s.totalCnt.toNat + 1 = params.statsThreshold
  · obtain ⟨events, counts⟩ := r.due due
    rw [events]
    exact ⟨rfl, fun below => absurd due below, fun _ => ⟨rfl, counts⟩⟩
  · obtain ⟨events, counts⟩ := r.below due
    rw [events]
    exact ⟨rfl, fun _ => ⟨rfl, counts⟩, fun h => absurd h due⟩

/-- A frame with one byte changed behind the head, cut off behind the byte that shows it, is rejected. -/
theorem exists_rejected_of_set (h : Inv s) (hs : s.st = .seek1) (x : Sample) (low : 3 ≤ j) (high : j ≤ 14)
    (changed : (encodeSample x)[j]? ≠ some v) : ∃ u k,
    run s (byteItems (((encodeSample x).set j v).take (if j = 14 then 15 else 14))) =
      some (u, u.events.map fun e => (k, e)) ∧ Rejected s u := by
  have len := length_dataBytes x
  rw [encodeSample_eq_append] at changed ⊢
  generalize dataBytes x = d at len changed ⊢
  rcases (by omega : j ≤ 12 ∨ j = 13 ∨ j = 14) with data | rfl | rfl
  · rw [getElem?_data len low data] at changed
    have mismatch : (checksum (params.typeSample :: d)).1 ≠ (checksum (params.typeSample :: d.set (j - 3) v)).1 :=
      (checksum_fst_set_ne (bs := params.typeSample :: d) (i := j - 3 + 1) (by simp [len]; omega) changed).symm
    have len' : (d.set (j - 3) v).length = 10 := by rw [List.length_set, len]
    rw [set_data len low data, if_neg (by omega), take_to_checksumA len']
    exact exists_rejectedA h hs len' mismatch
  · rw [getElem?_checksum len 0] at changed
    rw [set_checksum len 0, if_neg (by omega), List.set_cons_zero, take_to_checksumA len]
    exact exists_rejectedA h hs len fun same => changed (by rw [same]; rfl)
  · rw [getElem?_checksum len 1] at changed
    rw [set_checksum len 1, if_pos rfl, List.set_cons_succ, List.set_cons_zero, List.take_of_length_le (by simp [len])]
    exact exists_rejectedB h hs len fun same => changed (by rw [same]; rfl)

/-- Settles O54: a changed data byte changes the first sum, and a changed checksum byte is not the sum it stands for. -/
theorem oneCorruptedByteIsAlwaysCaught : Obligations.OneCorruptedByteIsAlwaysCaught := by
  intro s x j v h hs low high changed
  obtain ⟨u, k, run, rejected⟩ := exists_rejected_of_set h hs x low high changed
  exact ⟨u, _, run, rejected.st, rejected.events_shown k⟩

/-! ## A changed head byte -/

/-- What follows a return to SEEK1 gives no Sample before fifteen more bytes. -/
theorem exists_no_sample_behind {xs ys : List Byte} {ev : List (Nat × Event)} (h : Inv s)
    (lost : run s (byteItems xs) = some (t, ev)) (back : t.st = .seek1) (silent : samplesOf ev = [])
    (few : ys.length < 15) : ∃ t ev, run s (byteItems (xs ++ ys)) = some (t, ev) ∧ samplesOf ev = [] := by
  have inv : Inv t := h.of_runFrom lost
  obtain ⟨u, evs, rest⟩ := inv.exists_runFrom (0 + xs.length) (byteItems ys)
  refine ⟨u, _, runFrom_bytes_append lost rest, ?_⟩
  have none : samplesOf evs = [] := inv.no_sample_of_few rest
    (by rwa [received_of_seek1 back, List.length_nil, Nat.zero_add])
  rw [samplesOf_append, silent, none, List.nil_append]

/-- The three bytes of a head with one of them changed return to SEEK1 with the block as it was. -/
theorem exists_lost_head (hs : s.st = .seek1) (head : j ≤ 2) (changed : frameHead[j]? ≠ some v) :
    ∃ t, run s (byteItems (frameHead.set j v)) = some (t, if j = 2 then [(2, .unknownType v)] else []) ∧
      t.block = s.block := by
  have block : (goto .seek1 s).block = s.block := by rw [← hs]; rfl
  rcases (by omega : j = 0 ∨ j = 1 ∨ j = 2) with rfl | rfl | rfl
  · have hv : v ≠ params.sync1 := fun e => changed (by rw [e]; rfl)
    have b2 : ByteStep s.quiet params.sync2 _ := .s1Hit hs rfl
    have b3 : ByteStep (goto .seek2 s.quiet.quiet) params.typeSample _ := .s2Miss rfl (by decide)
    exact ⟨_, runFrom_cons_of_byteStep (.s1Miss hs hv) (runFrom_cons_of_byteStep b2 (runFrom_of_byteStep b3 2)), block⟩
  · have hv : v ≠ params.sync2 := fun e => changed (by rw [e]; rfl)
    have b2 : ByteStep (goto .seek2 s.quiet) v _ := .s2Miss rfl hv
    have b3 : ByteStep (goto .seek1 (goto .seek2 s.quiet).quiet) params.typeSample _ := .s1Miss rfl (by decide)
    exact ⟨_, runFrom_cons_of_byteStep (.s1Hit hs rfl) (runFrom_cons_of_byteStep b2 (runFrom_of_byteStep b3 2)), block⟩
  · have hv : v ≠ params.typeSample := fun e => changed (by rw [e]; rfl)
    have b3 : ByteStep (goto .type s.quiet) v _ := .tyUnk rfl hv
    exact ⟨_, runFrom_bytes_append (runFrom_syncs hs 0) (runFrom_of_byteStep b3 2), block⟩

/-- The twelve bytes of a frame behind its head. -/
def frameTail (x : Sample) : List Byte := dataBytes x ++
  [(checksum (params.typeSample :: dataBytes x)).1, (checksum (params.typeSample :: dataBytes x)).2]

theorem encodeSample_eq_head_tail (x : Sample) : encodeSample x = frameHead ++ frameTail x := by
  rw [encodeSample_eq_append, frameTail, List.append_assoc]

@[simp] theorem length_frameTail (x : Sample) : (frameTail x).length = 12 := by simp [frameTail]

/-- Settles O58: the head is lost, and the twelve bytes behind it are too few for a frame. -/
theorem oneCorruptedHeadByteLosesTheFrame : Obligations.OneCorruptedHeadByteLosesTheFrame := by
  intro s x j v h hs head changed
  have lt : j < frameHead.length := by rw [length_frameHead]; omega
  rw [encodeSample_eq_head_tail] at changed ⊢
  rw [List.getElem?_append_left lt] at changed
  rw [List.set_append_left _ _ lt, List.take_left' (by rw [List.length_set, length_frameHead])]
  obtain ⟨t, lost, block⟩ := exists_lost_head hs head changed
  refine ⟨⟨t, lost, block⟩, exists_no_sample_behind h lost ((congrArg Block.st block).trans hs) ?_ (by simp)⟩
  split <;> rfl

/-! ## Sync bytes before a frame -/

/-- Three sync bytes are taken for a head of an unknown type. -/
theorem runFrom_three_syncs (hs : s.st = .seek1) (n : Nat) : ∃ t,
    runFrom n s (byteItems (List.replicate 3 params.sync1)) = some (t, [(n + 2, .unknownType params.sync1)]) ∧
      t.st = .seek1 := by
  have third : ByteStep (goto .type s.quiet) params.sync1 _ := .tyUnk rfl (by decide)
  exact ⟨_, runFrom_bytes_append (runFrom_syncs hs n) (runFrom_of_byteStep third (n + 2)), rfl⟩

/-- A multiple of three sync bytes gives an unknown type for every three, and returns to SEEK1. -/
theorem exists_syncs (hs : s.st = .seek1) (q n : Nat) : ∃ t ev,
    runFrom n s (byteItems (List.replicate (3 * q) params.sync1)) = some (t, ev) ∧ t.st = .seek1 ∧
      ev.map (·.2) = List.replicate q (.unknownType params.sync1) ∧ samplesOf ev = [] := by
  induction q generalizing s n with
  | zero => exact ⟨_, _, rfl, hs, rfl, rfl⟩
  | succ q ih =>
    obtain ⟨t, three, back⟩ := runFrom_three_syncs hs n
    obtain ⟨u, ev, rest, st, events, samples⟩ := ih back (n + 3)
    have split : List.replicate (3 * (q + 1)) params.sync1 =
        List.replicate 3 params.sync1 ++ List.replicate (3 * q) params.sync1 := by
      rw [List.replicate_append_replicate]; congr 1; omega
    refine ⟨u, _, by rw [split]; exact runFrom_bytes_append three rest, st, ?_, ?_⟩
    · rw [List.map_append, events]; rfl
    · rw [samplesOf_append, samples]; rfl

/-- One or two sync bytes emit nothing. -/
theorem exists_few_syncs (hs : s.st = .seek1) {r : Nat} (few : r < 3) (n : Nat) :
    ∃ t, runFrom n s (byteItems (List.replicate r params.sync1)) = some (t, []) := by
  match r, few with
  | 0, _ => exact ⟨_, rfl⟩
  | 1, _ => exact ⟨_, runFrom_of_byteStep (.s1Hit hs rfl) n⟩
  | 2, _ => exact ⟨_, runFrom_syncs hs n⟩

/-- One or two sync bytes before a frame use up its own: what is left behind three of them is no frame. -/
theorem exists_no_sample_of_shifted (h : Inv s) (hs : s.st = .seek1) {r : Nat} (pos : r ≠ 0) (few : r < 3) (x : Sample) :
    ∃ t ev, run s (byteItems (List.replicate r params.sync1 ++ encodeSample x)) = some (t, ev) ∧ samplesOf ev = [] := by
  obtain ⟨t, three, back⟩ := runFrom_three_syncs hs 0
  have regroup : List.replicate r params.sync1 ++ encodeSample x = List.replicate 3 params.sync1 ++
      (List.replicate (r - 1) params.sync1 ++ params.typeSample :: frameTail x) := by
    rw [encodeSample_eq_head_tail]
    rcases (by omega : r = 1 ∨ r = 2) with rfl | rfl <;> rfl
  rw [regroup]
  exact exists_no_sample_behind h three back rfl (by simp; omega)

/-- A frame behind fewer than three sync bytes survives exactly where there are none. -/
theorem exists_samples_of_shifted (h : Inv s) (hs : s.st = .seek1) {r : Nat} (few : r < 3) (x : Sample) :
    ∃ t ev, run s (byteItems (List.replicate r params.sync1 ++ encodeSample x)) = some (t, ev) ∧
      samplesOf ev = if r = 0 then [x] else [] := by
  by_cases none : r = 0
  · obtain ⟨u, frame, accepted⟩ := exists_accepted h hs x 0
    rw [if_pos none, none]
    exact ⟨u, _, frame, accepted.samplesOf _⟩
  · rw [if_neg none]
    exact exists_no_sample_of_shifted h hs none few x

/-- Settles O53: three by three the sync bytes return to SEEK1, and the rest of them decides. -/
theorem straySyncBytesLoseTheFrame : Obligations.StraySyncBytesLoseTheFrame := by
  intro s k x h hs
  have threes : List.replicate k params.sync1 =
      List.replicate (3 * (k / 3)) params.sync1 ++ List.replicate (k % 3) params.sync1 := by
    rw [List.replicate_append_replicate, Nat.div_add_mod]
  have few : k % 3 < 3 := Nat.mod_lt _ (by decide)
  obtain ⟨t, ev, syncs, st, events, samples⟩ := exists_syncs hs (k / 3) 0
  have inv : Inv t := h.of_runFrom syncs
  rw [threes]
  constructor
  · obtain ⟨u, rest⟩ := exists_few_syncs st few (0 + (List.replicate (3 * (k / 3)) params.sync1).length)
    exact ⟨u, _, runFrom_bytes_append syncs rest, by rw [List.append_nil, events]⟩
  · obtain ⟨u, ev', rest, samples'⟩ := exists_samples_of_shifted inv st few x
    rw [List.append_assoc]
    refine ⟨u, _, runFrom_bytes_append syncs (runFrom_shift _ rest), ?_⟩
    rw [samplesOf_append, samplesOf_shift, samples, samples', List.nil_append]

end Sys2Proof.Machine
end
